-- ==== Sys2Proof/Word.lean ====
section
/-! DEFINITION. The word types of the core and the pair of words that one command is made of. -/

namespace Sys2Proof

/-- A 64-bit unsigned word: the core's arithmetic is modulo 2^64 (00_scope.md R7, R9). -/
abbrev Word := BitVec 64

/-- One byte of message, buffer or digest (00_scope.md R11). -/
abbrev Byte := BitVec 8

/-- One transaction at the host interface: the 32-bit command word CMD and the 64-bit data word DATA, issued
together (30_encoding.md R70; 10_state.md R22). Every pair of words may be issued, the illegal ones too (R240). -/
structure Command where
  cmd : BitVec 32
  data : BitVec 64
  deriving DecidableEq, Repr

end Sys2Proof
end

