-- ==== Sys2Proof/Config.lean ====
section
/-! DEFINITION. What is fixed for the machine (00_scope.md R7) and the parameters the spec leaves open to the
platform (92_eei_decisions.md D2, D20). -/

namespace Sys2Proof.Config

/-- The identity string of the core (00_scope.md R1). No behaviour depends on it. -/
def identity : String := "BLAKE2b-core/SilvR-blake2b-sse/unkeyed"

/-- The number of rounds of one compression (00_scope.md R7, 40_compression.md R110). -/
def rounds : Nat := 12

/-- Key length in bytes: the core is unkeyed (00_scope.md R7). -/
def keyLength : Byte := 0

/-- Default fan-out (00_scope.md R7, 41_block_processing.md R141). -/
def fanOut : Byte := 1

/-- Default depth (00_scope.md R7, 41_block_processing.md R141). -/
def depth : Byte := 1

/-- The output length the one-shot helper uses when none is given (30_encoding.md R82). -/
def defaultOutlen : Nat := 64

/-- OPEN (20_memory.md R51): where a platform places the interface registers on a bus. No rule reads it. -/
opaque regBase : Nat

/-- OPEN (70_reset_and_hazards.md R238): how many cycles a command takes, as a function of its two words and of
the state (of type `σ`). The core is untimed, and no rule reads it. -/
opaque cmdLatency (σ : Type) : BitVec 32 → BitVec 64 → σ → Nat

end Sys2Proof.Config
end

