-- ==== Sys2Proof/Machine/State.lean ====
section
/-! DEFINITION. The state of the core (10_state.md), the ways a step can stop, and the state after power-on reset. -/

namespace Sys2Proof.Machine

/-- The outcome of the most recent command, STATUS.ERR (60_exceptions.md R201). The codes 5..15 are never produced
(10_state.md R23), so no constructor stands for one. -/
inductive ErrCode where
  | ok
  | invalidParameter
  | notConfigured
  | illegalCommand
  | badLength
  deriving DecidableEq, Repr

/-- The 128-bit byte counter as the two words the spec represents it by: `t0` = T[63:0], `t1` = T[127:64]
(10_state.md R30). -/
structure Counter where
  t0 : Word
  t1 : Word
  deriving DecidableEq, Repr

/-- The chain value H[0..7] (10_state.md R29). -/
abbrev ChainValue := Vector Word 8

/-- The hash state the source defines (10_state.md R27 to R31). BUFLEN is `buf.length` and is not stored again (R28).
The bounds 1 <= OUTLEN <= 64 and BUFLEN <= 128 are the invariant `Hasher.Inv` of Safety.lean (R39). -/
structure Hasher where
  /-- OUTLEN, the digest length in bytes (R31; an 8-bit register, 1..64). -/
  outlen : Nat
  /-- H, the chain value (R29). -/
  h : ChainValue
  /-- T, the byte counter (R30). -/
  t : Counter
  /-- BUF, the pending bytes, oldest first (R27). -/
  buf : List Byte
  deriving DecidableEq, Repr

/-- The DIGEST register: 64 bytes, byte 0 first (10_state.md R26). -/
abbrev Digest := Vector Byte 64

/-- The state of the core and the commands its host has issued to it.

`hasher = none` is the spec's own state "no usable hash instance exists", which is CFG = 0 (10_state.md R32): then, and
only then, H, T, BUF and OUTLEN have no value (R39). `digest = none` is the spec's own power-on content of DIGEST, "no
value" (R20, R26, R38). Log entry 1 says why both are absent, not numbers. -/
structure State where
  /-- THE MODEL'S OWN field (log entry 2): the commands the host issues from here on, in the order of issue, each with
  its DATA word (70_reset_and_hazards.md R234, R239). -/
  stream : List Command
  /-- STATUS.ERR (10_state.md R23). -/
  err : ErrCode
  /-- STATUS.DVALID (10_state.md R23, R33). -/
  dvalid : Bool
  /-- RESULT, the return value of the most recent command (10_state.md R25). -/
  result : BitVec 32
  /-- DIGEST (10_state.md R26). -/
  digest : Option Digest
  /-- H, T, BUF and OUTLEN; CFG = 1 exactly when they are there (10_state.md R27 to R32). -/
  hasher : Option Hasher
  deriving DecidableEq, Repr

/-- CFG, STATUS[8]: 1 exactly when a usable hash instance exists (10_state.md R32). -/
def State.cfg (s : State) : Bool := s.hasher.isSome

/-- Why a step of the core stops with a fault: there is no such reason. Errors are results and not traps
(60_exceptions.md R200), the hash functions raise nothing (R211), and the core itself never stops or halts
(70_reset_and_hazards.md R239). -/
inductive Fault where
  deriving DecidableEq, Repr

/-- Why a step has no meaning. -/
inductive Refusal where
  /-- Raised by an arm of `exec` for an instruction that has no meaning yet. Safe: nothing is claimed of it. No arm of
  this model raises it. -/
  | notModelled (mnemonic : String)
  deriving DecidableEq, Repr

/-- The state after power-on reset (10_state.md R38, 70_reset_and_hazards.md R230): STATUS = 0 (ERR, CFG and DVALID 0),
RESULT = 0, and H, T, BUF, OUTLEN and DIGEST with no value. No command is in flight. -/
def State.reset : State where
  stream := []
  err := .ok
  dvalid := false
  result := 0
  digest := none
  hasher := none

end Sys2Proof.Machine
end

