-- ==== Sys2Proof/Machine/Compression.lean ====
section
/-! DEFINITION. The compression function and its constants (40_compression.md). The working vector, the message block,
the round index and the finalization flag exist only inside one compression (10_state.md R34). -/

namespace Sys2Proof.Machine

/-- The working vector V[0..15] (40_compression.md R109). -/
abbrev WorkVector := Vector Word 16

/-- The message block M[0..15] (41_block_processing.md R142). -/
abbrev MessageBlock := Vector Word 16

/-- IV, the initialization vector (40_compression.md R100). -/
def iv : ChainValue :=
  #v[0x6A09E667F3BCC908, 0xBB67AE8584CAA73B, 0x3C6EF372FE94F82B, 0xA54FF53A5F1D36F1,
     0x510E527FADE682D1, 0x9B05688C2B3E6C1F, 0x1F83D9ABFB41BD6B, 0x5BE0CD19137E2179]

/-- SIGMA, the message-schedule permutation table (40_compression.md R101). -/
def sigma : Vector (Vector (Fin 16) 16) 10 :=
  #v[#v[0, 1, 2, 3, 4, 5, 6, 7, 8, 9, 10, 11, 12, 13, 14, 15],
     #v[14, 10, 4, 8, 9, 15, 13, 6, 1, 12, 0, 2, 11, 7, 5, 3],
     #v[11, 8, 12, 0, 5, 2, 15, 13, 10, 14, 3, 6, 7, 1, 9, 4],
     #v[7, 9, 3, 1, 13, 12, 11, 14, 2, 6, 5, 10, 4, 0, 15, 8],
     #v[9, 0, 5, 7, 2, 4, 10, 15, 14, 1, 11, 12, 6, 8, 3, 13],
     #v[2, 12, 6, 10, 0, 11, 8, 3, 4, 13, 7, 5, 15, 14, 1, 9],
     #v[12, 5, 1, 15, 14, 13, 4, 10, 0, 7, 6, 3, 9, 2, 8, 11],
     #v[13, 11, 7, 14, 12, 1, 3, 9, 5, 0, 15, 4, 8, 6, 2, 10],
     #v[6, 15, 14, 9, 11, 3, 0, 8, 12, 2, 13, 7, 1, 4, 10, 5],
     #v[10, 2, 8, 4, 7, 6, 1, 5, 15, 11, 9, 14, 3, 12, 13, 0]]

/-- The schedule row of round `r`: SIGMA[r mod 10] (40_compression.md R102). -/
def scheduleRow (r : Nat) : Vector (Fin 16) 16 := sigma[r % 10]

/-- ROTR(x, n): rotation right by n bits (40_compression.md R103). -/
def rotr (x : Word) (n : Nat) : Word := (x >>> n) ||| (x <<< (64 - n))

/-- Four words of the working vector, or the numbers of four of its slots. -/
structure Quad (α : Type) where
  a : α
  b : α
  c : α
  d : α
  deriving DecidableEq, Repr

/-- The mixing primitive G: eight statements in sequence, additions modulo 2^64 (40_compression.md R104, R105). -/
def mixG (q : Quad Word) (x y : Word) : Quad Word :=
  let a := q.a + q.b + x
  let d := rotr (q.d ^^^ a) 32
  let c := q.c + d
  let b := rotr (q.b ^^^ c) 24
  let a := a + b + y
  let d := rotr (d ^^^ a) 16
  let c := c + d
  let b := rotr (b ^^^ c) 63
  { a := a, b := b, c := c, d := d }

/-- The slots of the eight G steps of a round: four columns, then four diagonals (40_compression.md R106). -/
def stepSlots : Vector (Quad (Fin 16)) 8 :=
  #v[⟨0, 4, 8, 12⟩, ⟨1, 5, 9, 13⟩, ⟨2, 6, 10, 14⟩, ⟨3, 7, 11, 15⟩,
     ⟨0, 5, 10, 15⟩, ⟨1, 6, 11, 12⟩, ⟨2, 7, 8, 13⟩, ⟨3, 4, 9, 14⟩]

/-- Reading four slots of V. -/
def readSlots (v : WorkVector) (p : Quad (Fin 16)) : Quad Word :=
  { a := v[p.a], b := v[p.b], c := v[p.c], d := v[p.d] }

/-- Writing four words back to the same four slots of V (40_compression.md R104). -/
def writeSlots (v : WorkVector) (p : Quad (Fin 16)) (q : Quad Word) : WorkVector :=
  (((v.set p.a q.a).set p.b q.b).set p.c q.c).set p.d q.d

/-- Step `i` of a round whose schedule row is `row`: G on the step's slots with the message words M[row[2i]] and
M[row[2i+1]] (40_compression.md R106, R107). -/
def mixStep (m : MessageBlock) (row : Vector (Fin 16) 16) (v : WorkVector) (i : Fin 8) : WorkVector :=
  let p := stepSlots[i]
  writeSlots v p (mixG (readSlots v p) m[row[2 * i.val]] m[row[2 * i.val + 1]])

/-- G steps in the order of a list. -/
def mixSteps (m : MessageBlock) (row : Vector (Fin 16) 16) (v : WorkVector) (steps : List (Fin 8)) : WorkVector :=
  steps.foldl (mixStep m row) v

/-- ROUND(V, M, r): the steps 0..7 in order (40_compression.md R107). -/
def mixRound (m : MessageBlock) (v : WorkVector) (r : Nat) : WorkVector :=
  mixSteps m (scheduleRow r) v [0, 1, 2, 3, 4, 5, 6, 7]

/-- The working vector before the first round: H, then IV, with the counter words XORed into V[12] and V[13] and, in the
final compression, V[14] complemented. V[15] is never changed (40_compression.md R109). -/
def workVector (h : ChainValue) (t : Counter) (isFinal : Bool) : WorkVector :=
  let v : WorkVector := Vector.ofFn fun i : Fin 16 => if _ : i.val < 8 then h[i.val] else iv[i.val - 8]
  let v := v.set 12 (v[12] ^^^ t.t0)
  let v := v.set 13 (v[13] ^^^ t.t1)
  if isFinal then v.set 14 (v[14] ^^^ 0xFFFFFFFFFFFFFFFF) else v

/-- The 12 rounds (40_compression.md R110). -/
def mixRounds (m : MessageBlock) (v : WorkVector) : WorkVector :=
  (List.range Config.rounds).foldl (mixRound m) v

/-- The feed-forward `h'[i] = h[i] xor v[i] xor v[i+8]` (40_compression.md R111). -/
def feedForward (h : ChainValue) (v : WorkVector) : ChainValue :=
  Vector.ofFn fun i : Fin 8 => h[i] ^^^ v[i.val] ^^^ v[i.val + 8]

/-- Compress(h, m, t, f): initialisation, 12 rounds, feed-forward; a total function of its operands
(40_compression.md R108, R112, R114). -/
def compress (h : ChainValue) (m : MessageBlock) (t : Counter) (isFinal : Bool) : ChainValue :=
  feedForward h (mixRounds m (workVector h t isFinal))

end Sys2Proof.Machine
end

