-- ==== Sys2Proof/Machine/Operands.lean ====
section
/-! DEFINITION. Bytes of words: the little-endian byte order of the core, decided once (20_memory.md R52 to R55). -/

namespace Sys2Proof.Machine

/-- Byte `k` of a word: `w[8k+7:8k]` (00_scope.md R8). -/
def byteOf (w : Word) (k : Nat) : Byte := w.extractLsb' (8 * k) 8

/-- `LE(b0..bj)`: the word with `b0` in bits 7..0, `b1` in bits 15..8 and so on (30_encoding.md R81). On eight bytes it
is LE64 (41_block_processing.md R142). -/
def leWord : List Byte → Word
  | [] => 0
  | b :: bs => b.setWidth 64 ||| (leWord bs <<< 8)

/-- The `n` bytes that WRITE takes from DATA, the byte in DATA[7:0] first; the bytes k >= n are ignored
(30_encoding.md R74). -/
def laneBytes (n : Nat) (data : Word) : List Byte := (List.range n).map (byteOf data)

/-- `zeros(n)`: n bytes of 0x00 (00_scope.md R11). -/
def zeros (n : Nat) : List Byte := List.replicate n 0

end Sys2Proof.Machine
end

