-- ==== Sys2Proof/Syntax.lean ====
section
/-! DEFINITION. The commands of the core, one constructor per row of the opcode table. -/

namespace Sys2Proof

/-- The five host commands (30_encoding.md R75). The operands are the numbers the assembler writes (R79): `outlen`
and `n` are the ARG field, read as an unsigned number (R71), and `data` is the DATA word. -/
inductive Instr where
  /-- INIT: make a hash instance with output length `outlen` (42_commands.md R171). -/
  | init (outlen : Nat)
  /-- WRITE: append the `n` low bytes of `data` to the input stream (42_commands.md R172). -/
  | write (n : Nat) (data : BitVec 64)
  /-- SUM: put the digest of the bytes written so far into DIGEST (42_commands.md R173). -/
  | sum
  /-- RESET: return the hash instance to its state after INIT (42_commands.md R174). -/
  | reset
  /-- SIZE: report the configured output length (42_commands.md R175). -/
  | size
  deriving DecidableEq, Repr

end Sys2Proof
end

