-- ==== Sys2Proof/WellFormed.lean ====
section
/-! DEFINITION. Which terms of `Instr` a command word can carry. -/

namespace Sys2Proof

/-- A number fits the 8-bit ARG field (30_encoding.md R70: CMD[7:0]). -/
def fitsArg (n : Nat) : Bool := decide (n < 256)

/-- The operand of INIT and of WRITE is 0..255, all that ARG can encode and all that an assembler accepts
(30_encoding.md R72, R73, R79). Whether an encodable operand is LEGAL is no matter of form: it is checked when the
command executes (R77). -/
def Instr.wf : Instr → Bool
  | .init outlen => fitsArg outlen
  | .write n _ => fitsArg n
  | .sum => true
  | .reset => true
  | .size => true

end Sys2Proof
end

