-- ==== Sys2Proof/Decode.lean ====
section
/-! DEFINITION. The command decoder (30_encoding.md R70 to R77), total on every pair of words, and the encoder
(R75, R79). -/

namespace Sys2Proof

/-- Why a command word is illegal (30_encoding.md R76). All three raise the one error ILLEGAL_COMMAND. -/
inductive Illegal where
  /-- OP is 0x00 or 0x06..0xFF. -/
  | undefinedOpcode
  /-- RSV is not 0. -/
  | reservedField
  /-- SUM, RESET or SIZE with ARG not 0. -/
  | reservedArg
  deriving DecidableEq, Repr

/-- The one verdict that every command word has (30_encoding.md R76). -/
inductive Decoded where
  | command (i : Instr)
  | illegal (why : Illegal)
  deriving DecidableEq, Repr

/-- OP = CMD[31:24], an unsigned number (30_encoding.md R70, R71). -/
def cmdOp (w : BitVec 32) : Nat := (w.extractLsb' 24 8).toNat

/-- RSV = CMD[23:8], an unsigned number (30_encoding.md R70, R71). -/
def cmdRsv (w : BitVec 32) : Nat := (w.extractLsb' 8 16).toNat

/-- ARG = CMD[7:0], an unsigned number (30_encoding.md R70, R71). -/
def cmdArg (w : BitVec 32) : Nat := (w.extractLsb' 0 8).toNat

/-- A command without operand: legal only with ARG = 0 (30_encoding.md R77). -/
def decodeNoArg (arg : Nat) (i : Instr) : Decoded :=
  if arg = 0 then .command i else .illegal .reservedArg

/-- The opcode map (30_encoding.md R75, R77), once RSV is known to be 0. -/
def decodeOp (op arg : Nat) (data : BitVec 64) : Decoded :=
  match op with
  | 0x01 => .command (.init arg)
  | 0x02 => .command (.write arg data)
  | 0x03 => decodeNoArg arg .sum
  | 0x04 => decodeNoArg arg .reset
  | 0x05 => decodeNoArg arg .size
  | _ => .illegal .undefinedOpcode

/-- The decoder, total on every CMD and DATA (30_encoding.md R77). The range of INIT's and WRITE's ARG is checked at
execution, so out-of-range operands decode. DATA reaches only WRITE (10_state.md R22). -/
def decode (c : Command) : Decoded :=
  if cmdRsv c.cmd ≠ 0 then .illegal .reservedField
  else decodeOp (cmdOp c.cmd) (cmdArg c.cmd) c.data

/-- The OP field of each command (30_encoding.md R75). -/
def Instr.opcode : Instr → Nat
  | .init _ => 0x01
  | .write _ _ => 0x02
  | .sum => 0x03
  | .reset => 0x04
  | .size => 0x05

/-- The ARG field of each command (30_encoding.md R70). -/
def Instr.argField : Instr → Nat
  | .init outlen => outlen
  | .write n _ => n
  | .sum => 0
  | .reset => 0
  | .size => 0

/-- The DATA word of each command: 0 where the command has no data operand (30_encoding.md R79). -/
def Instr.dataWord : Instr → BitVec 64
  | .init _ => 0
  | .write _ data => data
  | .sum => 0
  | .reset => 0
  | .size => 0

/-- The encoder: OP above RSV = 0 above ARG (30_encoding.md R70, R75, R79). -/
def encode (i : Instr) : Command where
  cmd := BitVec.ofNat 8 i.opcode ++ (0#16 ++ BitVec.ofNat 8 i.argField)
  data := i.dataWord

/-- The command whose bits are `w`, of which the opcode table gives the lowest `nbits`: CMD is bits 31..0 and DATA is
bits 95..32, each word's bit 0 lowest. Bits above `nbits` are 0. -/
def commandOfTableWord (nbits w : Nat) : Command where
  cmd := BitVec.ofNat 32 (w % 2 ^ nbits)
  data := BitVec.ofNat 64 (w % 2 ^ nbits / 2 ^ 32)

/-- The instruction the decoder reads from an instruction word numbered as the opcode table numbers it. -/
def decodeTableWord (nbits w : Nat) : Option Instr :=
  match decode (commandOfTableWord nbits w) with
  | .command i => some i
  | .illegal _ => none

end Sys2Proof
end

