-- ==== Sys2Proof/Machine/Flags.lean ====
section
/-! DEFINITION. STATUS and its fields, what the host reads, and the priority of errors. The core has no condition codes:
ERR, CFG and DVALID are its only status flags (10_state.md R36). -/

namespace Sys2Proof.Machine

/-- The number of an error (60_exceptions.md R201). -/
def ErrCode.code : ErrCode → BitVec 4
  | .ok => 0
  | .invalidParameter => 1
  | .notConfigured => 2
  | .illegalCommand => 3
  | .badLength => 4

/-- STATUS as the host reads it: `zext_32({DVALID, CFG, 0b0000, ERR})` (10_state.md R23, R24). Every other bit
reads 0. -/
def State.status (s : State) : BitVec 32 :=
  (BitVec.ofBool s.dvalid ++ (BitVec.ofBool s.cfg ++ (0#4 ++ s.err.code))).setWidth 32

/-- What reading DIGEST gives the host: the register while DVALID = 1, and no value while DVALID = 0
(10_state.md R26, 70_reset_and_hazards.md R236; log entry 17). -/
def State.readDigest (s : State) : Option Digest := if s.dvalid then s.digest else none

/-- DIGEST as one 512-bit number: byte i is `DIGEST[8i+7:8i]` (10_state.md R26). -/
def digestNumber (d : Digest) : BitVec 512 :=
  d.toList.foldr (fun b acc => b.setWidth 512 ||| (acc <<< 8)) 0

/-- The first failing check of a command, in the order of priority, or OK (60_exceptions.md R206). -/
def check (c : Decoded) (s : State) : ErrCode :=
  match c with
  | .illegal _ => .illegalCommand
  | .command (.write n _) => if 8 < n then .badLength else if s.cfg then .ok else .notConfigured
  | .command (.init a) => if a < 1 ∨ 64 < a then .invalidParameter else .ok
  | .command .sum => if s.cfg then .ok else .notConfigured
  | .command .reset => if s.cfg then .ok else .notConfigured
  | .command .size => if s.cfg then .ok else .notConfigured

end Sys2Proof.Machine
end

