-- ==== Sys2Proof/Machine/Ops.lean ====
section
/-! DEFINITION. The shared operations on the state: how a command ends, in an error or well, the guard for a missing
instance, the byte counter's addition, and how the next command is taken. -/

namespace Sys2Proof.Machine

/-- `raise e` (60_exceptions.md R207): ERR becomes the error and RESULT 0, and nothing else changes. There is no trap:
no vector, no saved pc, no mode (R200), and no return from an error (R208). -/
def State.raise (s : State) (e : ErrCode) : State := { s with err := e, result := 0 }

/-- The end of a command that passed all checks: RESULT takes its value (10_state.md R25) and ERR becomes 0
(42_commands.md R176). -/
def State.complete (s : State) (result : Nat) : State :=
  { s with err := .ok, result := BitVec.ofNat 32 result }

/-- A command that needs a hash instance: without one (CFG = 0) it ends with NOT_CONFIGURED (60_exceptions.md R204),
with one it goes on. -/
def whenConfigured (s : State) (perform : Hasher → State) : Host.Outcome State Fault Refusal :=
  match s.hasher with
  | none => .next (s.raise .notConfigured)
  | some h => .next (perform h)

/-- `T +128 k` on the two words of the counter, with the carry out of the low word (41_block_processing.md R144). -/
def Counter.add (t : Counter) (k : Word) : Counter :=
  let t0 := t.t0 + k
  { t0 := t0, t1 := t.t1 + (if t0 < k then 1 else 0) }

/-- The counter as one number of 128 bits (10_state.md R30). -/
def Counter.value (t : Counter) : BitVec 128 := t.t1 ++ t.t0

/-- The counter that holds a number, modulo 2^128. -/
def Counter.ofNat (n : Nat) : Counter where
  t0 := BitVec.ofNat 64 n
  t1 := BitVec.ofNat 64 (n / 2 ^ 64)

/-- The command the host issues next, and the state with that command taken: CMD and DATA are sampled once
(10_state.md R22), and commands take effect one at a time in the order of issue (20_memory.md R61). -/
def nextCommand (s : State) : Option (Command × State) :=
  match s.stream with
  | [] => none
  | c :: cs => some (c, { s with stream := cs })

/-- The state in which the host's next command is `c`. -/
def State.issueNext (s : State) (c : Command) : State := { s with stream := c :: s.stream }

/-- The start of a run: power-on reset, and the host is going to issue the commands `cs` (70_reset_and_hazards.md
R239). -/
def powerOn (cs : List Command) : State := { State.reset with stream := cs }

end Sys2Proof.Machine
end

