-- ==== Sys2Proof/Machine/Block.lean ====
section
/-! DEFINITION. The hash state and its block processing: seeding, block decoding, absorbing a byte, finalization and
serialization (41_block_processing.md). -/

namespace Sys2Proof.Machine

/-- Eight bytes of a sequence from position `i` on, as one little-endian word: LE64 (41_block_processing.md R142). A
byte beyond the end of the sequence is 0; no rule reads one, since every sequence decoded here is long enough
(log entry 10). -/
def le64At (bs : List Byte) (i : Nat) : Word :=
  leWord ((List.range 8).map fun k => bs.getD (i + k) 0)

/-- The parameter block for digest length `n`: 64 bytes, of which only the digest length, the key length, the fan-out
and the depth are set (41_block_processing.md R141). -/
def parameterBlock (n : Nat) : List Byte :=
  [BitVec.ofNat 8 n, Config.keyLength, Config.fanOut, Config.depth] ++ zeros 60

/-- Seed(n): the IV XORed with the parameter block, read as eight little-endian words (41_block_processing.md R140,
R141). -/
def seed (n : Nat) : ChainValue :=
  Vector.ofFn fun i : Fin 8 => iv[i] ^^^ le64At (parameterBlock n) (8 * i.val)

/-- DecodeBlock: the 16 message words of a 128-byte block (41_block_processing.md R142). -/
def decodeBlock (block : List Byte) : MessageBlock :=
  Vector.ofFn fun j : Fin 16 => le64At block (8 * j.val)

/-- The hash state after INIT or RESET with output length `n`: H = Seed(n), T = 0, BUF empty (70_reset_and_hazards.md
R231). -/
def freshHasher (n : Nat) : Hasher where
  outlen := n
  h := seed n
  t := { t0 := 0, t1 := 0 }
  buf := []

/-- Absorb(b): a full buffer is compressed as a block that is not the last, with the counter already advanced by 128,
only when one more byte arrives; then the byte is appended (41_block_processing.md R143, R147, R148). -/
def absorb (x : Hasher) (b : Byte) : Hasher :=
  if x.buf.length = 128 then
    let t := x.t.add 128
    { x with h := compress x.h (decodeBlock x.buf) t false, t := t, buf := [b] }
  else
    { x with buf := x.buf ++ [b] }

/-- Absorbing a byte sequence, first byte first (42_commands.md R172). -/
def absorbAll (x : Hasher) (bs : List Byte) : Hasher := bs.foldl absorb x

/-- Serialize(h', n): the first n bytes of the chain value, little-endian (41_block_processing.md R146). -/
def serialize (h : ChainValue) (n : Nat) : List Byte :=
  (List.range n).map fun i => byteOf (h.toList.getD (i / 8) 0) (i % 8)

/-- The chain value of the final compression: the buffer padded with zero bytes to 128, the true byte count, the
finalization flag (41_block_processing.md R145). -/
def finalChain (x : Hasher) : ChainValue :=
  compress x.h (decodeBlock (x.buf ++ zeros (128 - x.buf.length)))
    (x.t.add (BitVec.ofNat 64 x.buf.length)) true

/-- Finalize(): the digest of the bytes written so far, from a scratch copy (41_block_processing.md R145). -/
def finalize (x : Hasher) : List Byte := serialize (finalChain x) x.outlen

/-- What SUM writes to DIGEST: the digest bytes, then 0x00 (42_commands.md R173). -/
def digestOf (x : Hasher) : Digest :=
  Vector.ofFn fun i : Fin 64 => if i.val < x.outlen then (finalize x).getD i.val 0 else 0

end Sys2Proof.Machine
end

