-- ==== Sys2Proof/Machine/Commands.lean ====
section
/-! DEFINITION. The meanings of the five host commands (42_commands.md). Each ends in a next state: an error is a result
(60_exceptions.md R200, R207). -/

namespace Sys2Proof.Machine

/-- INIT (42_commands.md R171): a fresh instance of output length `outlen`, DIGEST marked invalid and RESULT = OUTLEN; outside
1..64 INVALID_PARAMETER (60_exceptions.md R205). -/
def execInit (outlen : Nat) (s : State) : Host.Outcome State Fault Refusal :=
  if outlen < 1 ∨ 64 < outlen then .next (s.raise .invalidParameter)
  else .next ({ s with hasher := some (freshHasher outlen), dvalid := false }.complete outlen)

/-- WRITE (42_commands.md R172): absorb the `n` low bytes of DATA in order, RESULT = n; BAD_LENGTH if n > 8, checked before
the instance (60_exceptions.md R203, R206). -/
def execWrite (n : Nat) (data : BitVec 64) (s : State) : Host.Outcome State Fault Refusal :=
  if 8 < n then .next (s.raise .badLength)
  else whenConfigured s fun x =>
    { s with hasher := some (absorbAll x (laneBytes n data)) }.complete n

/-- SUM (42_commands.md R173): DIGEST = the digest and zeros, DVALID = 1, RESULT = OUTLEN; the hash state is
untouched. -/
def execSum (s : State) : Host.Outcome State Fault Refusal :=
  whenConfigured s fun x =>
    { s with digest := some (digestOf x), dvalid := true }.complete x.outlen

/-- RESET (42_commands.md R174): the instance as INIT with the same OUTLEN leaves it, DIGEST marked invalid,
RESULT = 0. -/
def execReset (s : State) : Host.Outcome State Fault Refusal :=
  whenConfigured s fun x =>
    { s with hasher := some (freshHasher x.outlen), dvalid := false }.complete 0

/-- SIZE (42_commands.md R175): RESULT = OUTLEN. -/
def execSize (s : State) : Host.Outcome State Fault Refusal :=
  whenConfigured s fun x => s.complete x.outlen

end Sys2Proof.Machine
end

