-- ==== Sys2Proof/Machine/Dispatch.lean ====
section
/-! DEFINITION. One arm per command: each calls its meaning. -/

namespace Sys2Proof.Machine

def exec (i : Instr) (s : State) : Host.Outcome State Fault Refusal :=
  match i with
  | .init outlen => Sys2Proof.Machine.execInit outlen s
  | .write n data => Sys2Proof.Machine.execWrite n data s
  | .sum => Sys2Proof.Machine.execSum s
  | .reset => Sys2Proof.Machine.execReset s
  | .size => Sys2Proof.Machine.execSize s

end Sys2Proof.Machine
end

