-- ==== Sys2Proof/Machine/Execute.lean ====
section
/-! DEFINITION. Executing one command word pair (42_commands.md R170). -/

namespace Sys2Proof.Machine

/-- `execute(CMD, DATA)`: decode, then perform the command, or end with ILLEGAL_COMMAND where the word is illegal
(42_commands.md R170, 60_exceptions.md R202). One atomic step (20_memory.md R58). -/
def execute (c : Command) (s : State) : Host.Outcome State Fault Refusal :=
  match decode c with
  | .command i => exec i s
  | .illegal _ => .next (s.raise .illegalCommand)

end Sys2Proof.Machine
end

