-- ==== Sys2Proof/Machine/Step.lean ====
section
/-! DEFINITION. One step of the core: it takes the host's next command and executes it. -/

namespace Sys2Proof.Machine

/-- One step. Where the host issues no further command the core stays as it is: it has no program, no timer and no
event of its own (10_state.md R21, 60_exceptions.md R209, R213; log entry 3). -/
def step (s : State) : Host.Outcome State Fault Refusal :=
  match nextCommand s with
  | none => .next s
  | some (c, s') => execute c s'

/-- The state in which the host's next command is the one whose bits are `w` (log entry 4). -/
def State.withFetchWord (s : State) (nbits w : Nat) : State :=
  s.issueNext (commandOfTableWord nbits w)

end Sys2Proof.Machine
end

