-- ==== Sys2Proof/Machine/Pseudo.lean ====
section
/-! DEFINITION. The pseudo-commands and the assembler's lines (30_encoding.md R79 to R82). None is a command of its own:
each stands for a sequence of the five. -/

namespace Sys2Proof.Machine

/-- `WRITEB <b>` (30_encoding.md R80). -/
def writeB (b : Byte) : List Instr := [.write 1 (leWord [b])]

/-- `WRITES <bytes>` (30_encoding.md R81): WRITE commands of 8 bytes, the last one shorter where the length is no
multiple of 8; for no bytes, `WRITE 0, 0`. -/
def writeS (bytes : List Byte) : List Instr :=
  if bytes.length = 0 then [.write 0 0]
  else (List.range ((bytes.length + 7) / 8)).map fun c =>
    .write (min 8 (bytes.length - 8 * c)) (leWord ((bytes.drop (8 * c)).take 8))

/-- `ONESHOT [<outlen>,] <bytes>` (30_encoding.md R82): INIT, WRITES, SUM; the output length is 64 when omitted. -/
def oneShot (outlen : Option Nat) (bytes : List Byte) : List Instr :=
  .init (outlen.getD Config.defaultOutlen) :: (writeS bytes ++ [.sum])

/-- One line of a command sequence (30_encoding.md R79 to R82). -/
inductive AsmLine where
  | command (i : Instr)
  /-- `.word <cmd32>, <data64>`: any raw command, the illegal ones too. -/
  | word (c : Command)
  | writeB (b : Byte)
  | writeS (bytes : List Byte)
  | oneShot (outlen : Option Nat) (bytes : List Byte)
  deriving DecidableEq, Repr

/-- The commands of instructions, in order (30_encoding.md R79). -/
def assemble (is : List Instr) : List Command := is.map encode

/-- The commands that a line stands for (30_encoding.md R79 to R82). -/
def AsmLine.commands : AsmLine → List Command
  | .command i => [encode i]
  | .word c => [c]
  | .writeB b => assemble (Machine.writeB b)
  | .writeS bytes => assemble (Machine.writeS bytes)
  | .oneShot outlen bytes => assemble (Machine.oneShot outlen bytes)

/-- The value of a decimal digit or of a hexadecimal one of either case. -/
def digitValue (c : Char) : Nat :=
  if '0' ≤ c ∧ c ≤ '9' then c.toNat - '0'.toNat
  else if 'a' ≤ c ∧ c ≤ 'f' then c.toNat - 'a'.toNat + 10
  else if 'A' ≤ c ∧ c ≤ 'F' then c.toNat - 'A'.toNat + 10
  else 16

/-- A non-empty string of digits of a base. -/
def parseDigits (base : Nat) (cs : List Char) : Option Nat :=
  if cs.isEmpty || cs.any (fun c => base ≤ digitValue c) then none
  else some (cs.foldl (fun acc c => acc * base + digitValue c) 0)

/-- A number below a bound, decimal or with `0x` hexadecimal (30_encoding.md R79). -/
def parseNumber (bound : Nat) (cs : List Char) : Option Nat :=
  let value := match cs with
    | '0' :: 'x' :: hex => parseDigits 16 hex
    | _ => parseDigits 10 cs
  value.filter (· < bound)

/-- A string without the blanks at its two ends. -/
def trimBlanks (cs : List Char) : List Char :=
  ((cs.dropWhile Char.isWhitespace).reverse.dropWhile Char.isWhitespace).reverse

/-- The operands of a line: what stands between commas, without blanks; none where nothing stands. -/
def splitOperands (cs : List Char) : List (List Char) :=
  if (trimBlanks cs).isEmpty then [] else (cs.splitOn ',').map trimBlanks

/-- A mnemonic and its operands (30_encoding.md R79, R80): INIT's and WRITE's first operands are 0..255. -/
def parseOperation (mnemonic : List Char) (operands : List (List Char)) : Option AsmLine :=
  match mnemonic, operands with
  | ['I', 'N', 'I', 'T'], [a] => (parseNumber 256 a).map fun n => .command (.init n)
  | ['W', 'R', 'I', 'T', 'E'], [a, d] =>
    (parseNumber 256 a).bind fun n =>
      (parseNumber (2 ^ 64) d).map fun x => .command (.write n (BitVec.ofNat 64 x))
  | ['S', 'U', 'M'], [] => some (.command .sum)
  | ['R', 'E', 'S', 'E', 'T'], [] => some (.command .reset)
  | ['S', 'I', 'Z', 'E'], [] => some (.command .size)
  | ['.', 'w', 'o', 'r', 'd'], [a, d] =>
    (parseNumber (2 ^ 32) a).bind fun w =>
      (parseNumber (2 ^ 64) d).map fun x => .word { cmd := BitVec.ofNat 32 w, data := BitVec.ofNat 64 x }
  | ['W', 'R', 'I', 'T', 'E', 'B'], [a] => (parseNumber 256 a).map fun b => .writeB (BitVec.ofNat 8 b)
  | _, _ => none

/-- One line of text: `;` to the end of the line is a comment, and a line without a command stands for none
(30_encoding.md R79). The spec gives no text for the byte sequences of WRITES and ONESHOT. -/
def parseLine (cs : List Char) : Option (List AsmLine) :=
  let body := trimBlanks (cs.takeWhile (· ≠ ';'))
  if body.isEmpty then some []
  else
    let mnemonic := body.takeWhile fun c => !c.isWhitespace
    (parseOperation mnemonic (splitOperands (body.drop mnemonic.length))).map fun l => [l]

end Sys2Proof.Machine
end

