-- ==== Sys2Proof/Machine/Run.lean ====
section
/-! DEFINITION. Runs of the core and what a host observes of them (70_reset_and_hazards.md R239). -/

namespace Sys2Proof.Machine

/-- What the host reads after a command: STATUS, RESULT, and DIGEST while DVALID = 1 (70_reset_and_hazards.md R239).
Reading has no side effect (20_memory.md R59). -/
structure Observation where
  status : BitVec 32
  result : BitVec 32
  digest : Option Digest
  deriving DecidableEq, Repr

/-- The host's reading of STATUS, RESULT and DIGEST. -/
def observe (s : State) : Observation where
  status := s.status
  result := s.result
  digest := s.readDigest

/-- Commands executed one after another, each from the state the one before it left (20_memory.md R61,
70_reset_and_hazards.md R239). -/
def runCommands : List Command → State → Host.Outcome State Fault Refusal
  | [], s => .next s
  | c :: cs, s =>
    match execute c s with
    | .next t => runCommands cs t
    | .fault r => .fault r
    | .refused r => .refused r

/-- The observation of a run: what the host reads after each command (70_reset_and_hazards.md R239). -/
def observations : List Command → State → List Observation
  | [], _ => []
  | c :: cs, s =>
    match execute c s with
    | .next t => observe t :: observations cs t
    | .fault _ => []
    | .refused _ => []

/-- The list of every nonzero ERR of a run, oldest first: the bookkeeping that 60_exceptions.md R208 allows a model,
no state of the hardware. -/
def recordedErrors (os : List Observation) : List (BitVec 4) :=
  (os.map fun o => o.status.extractLsb' 0 4).filter (· ≠ 0)

end Sys2Proof.Machine
end

