-- ==== Sys2Proof/Machine/Stream.lean ====
section
/-! DEFINITION. The message a host has written, and the hash state and digest it stands for, in closed form
(41_block_processing.md R148, R152; 20_memory.md R61). No command calls these: they are the second description of the
core that the spec gives, and claims compare the two. -/

namespace Sys2Proof.Machine

/-- The output length of the last successful INIT, and the bytes of every successful WRITE since the last successful
INIT or RESET (20_memory.md R61). -/
structure Message where
  outlen : Nat
  bytes : List Byte
  deriving DecidableEq, Repr

/-- What one command makes of the message; a failed command contributes nothing (20_memory.md R61). -/
def messageAfter (m : Option Message) (c : Decoded) : Option Message :=
  match c with
  | .illegal _ => m
  | .command (.init n) => if 1 ≤ n ∧ n ≤ 64 then some { outlen := n, bytes := [] } else m
  | .command (.write n data) =>
    m.map fun x => if n ≤ 8 then { x with bytes := x.bytes ++ laneBytes n data } else x
  | .command .sum => m
  | .command .reset => m.map fun x => { x with bytes := [] }
  | .command .size => m

/-- The chain value after the first `i` blocks of the bytes `bs`, each compressed as a block that is not the last: block
i of them sees the counter 128·i (41_block_processing.md R148, R152). -/
def chainAfter (n : Nat) (bs : List Byte) : Nat → ChainValue
  | 0 => seed n
  | i + 1 =>
    compress (chainAfter n bs i) (decodeBlock ((bs.drop (128 * i)).take 128)) (Counter.ofNat (128 * (i + 1))) false

/-- How many blocks are compressed before SUM: all but the last one, `ceil(L/128) - 1`, and none for the empty message
(41_block_processing.md R152, R153). -/
def blocksBeforeSum (len : Nat) : Nat := (len - 1) / 128

/-- The hash state that a message leaves (41_block_processing.md R152, R153). -/
def Message.hasher (m : Message) : Hasher where
  outlen := m.outlen
  h := chainAfter m.outlen m.bytes (blocksBeforeSum m.bytes.length)
  t := Counter.ofNat (128 * blocksBeforeSum m.bytes.length)
  buf := m.bytes.drop (128 * blocksBeforeSum m.bytes.length)

/-- The digest of a message in closed form (41_block_processing.md R152). -/
def Message.digest (m : Message) : List Byte :=
  if m.bytes.length = 0 then
    serialize (compress (seed m.outlen) (decodeBlock (zeros 128)) (Counter.ofNat 0) true) m.outlen
  else
    let k := (m.bytes.length + 127) / 128
    let last := m.bytes.drop (128 * (k - 1)) ++ zeros (128 * k - m.bytes.length)
    serialize (compress (chainAfter m.outlen m.bytes (k - 1)) (decodeBlock last) (Counter.ofNat m.bytes.length) true)
      m.outlen

/-- The 64 bytes of DIGEST that hold a digest: its bytes, then 0x00 (42_commands.md R173). -/
def padDigest (d : List Byte) : Digest := Vector.ofFn fun i : Fin 64 => d.getD i.val 0

end Sys2Proof.Machine
end

