-- ==== Sys2Proof/Safety.lean ====
section
/-! DEFINITION. What the spec says holds between commands (10_state.md R39), and what a run without errors is, in the
terms that claims use. -/

namespace Sys2Proof.Machine

/-- The invariants of a hash instance (10_state.md R39, points 2 and 3): 1 <= OUTLEN <= 64, BUFLEN <= 128,
T mod 128 = 0, and an empty buffer only while T = 0 and H is the seed. -/
abbrev Hasher.Inv (x : Hasher) : Prop :=
  (1 ≤ x.outlen ∧ x.outlen ≤ 64) ∧ x.buf.length ≤ 128 ∧ x.t.value.toNat % 128 = 0 ∧
    (x.buf = [] → x.t = { t0 := 0, t1 := 0 } ∧ x.h = seed x.outlen)

/-- The bytes of DIGEST from OUTLEN on are 0x00 (70_reset_and_hazards.md R236). -/
def zeroTail (d : Digest) (outlen : Nat) : Bool := decide (∀ i : Fin 64, outlen ≤ i.val → d[i] = 0)

/-- The invariants between commands (10_state.md R39): the instance's; DVALID = 1 only with CFG = 1 (point 5), and then
with a value in DIGEST whose tail is zero (R26, 70_reset_and_hazards.md R236). Point 1 (CFG = 0 exactly when H, T, BUF
and OUTLEN have no value) holds by the form of `State`. -/
abbrev State.Inv (s : State) : Prop :=
  (∀ x ∈ s.hasher, x.Inv ∧ (s.dvalid = true → s.digest.any (zeroTail · x.outlen) = true)) ∧
    (s.dvalid = true → s.cfg = true)

/-- The hash state is the one that the message written so far stands for (20_memory.md R61). -/
abbrev Represents (m : Option Message) (s : State) : Prop := s.hasher = m.map Message.hasher

/-- A run in which every command succeeded (60_exceptions.md R208). -/
abbrev NoErrorRecorded (os : List Observation) : Prop := recordedErrors os = []

/-- OP = CMD[31:24] of a command word, as a number (30_encoding.md R70). -/
abbrev opOf (c : Command) : Nat := c.cmd.toNat / 2 ^ 24

/-- RSV = CMD[23:8] of a command word, as a number (30_encoding.md R70). -/
abbrev rsvOf (c : Command) : Nat := c.cmd.toNat / 2 ^ 8 % 2 ^ 16

/-- ARG = CMD[7:0] of a command word, as a number (30_encoding.md R70). -/
abbrev argOf (c : Command) : Nat := c.cmd.toNat % 2 ^ 8

/-- An illegal command word (30_encoding.md R76). -/
abbrev IllegalWord (c : Command) : Prop :=
  (opOf c = 0 ∨ 6 ≤ opOf c) ∨ rsvOf c ≠ 0 ∨ ((opOf c = 3 ∨ opOf c = 4 ∨ opOf c = 5) ∧ argOf c ≠ 0)

/-- The words of opcode `op` run the command `i`, made from ARG and DATA; the illegal ones among them only set ERR to
ILLEGAL_COMMAND and RESULT to 0 (30_encoding.md R75, R76). -/
def WordsOf (op : Nat) (i : Nat → BitVec 64 → Instr) : Prop :=
  ∀ (c : Command) (s : State), opOf c = op →
    (IllegalWord c → execute c s = .next { s with err := .illegalCommand, result := 0 }) ∧
      (¬ IllegalWord c → execute c s = exec (i (argOf c) c.data) s)

/-- The bytes WRITE takes from DATA, written out by lanes: byte k is DATA[8k+7:8k] (30_encoding.md R74). -/
abbrev dataLanes (n : Nat) (data : BitVec 64) : List Byte :=
  (List.range n).map fun k => data.extractLsb' (8 * k) 8

/-- WRITE commands with given byte counts and data words. -/
abbrev writeCommands (ws : List (Nat × BitVec 64)) : List Command := assemble (ws.map fun w => .write w.1 w.2)

/-- The bytes that WRITE commands carry, in the order of issue (20_memory.md R61). -/
abbrev writtenBytes (ws : List (Nat × BitVec 64)) : List Byte := ws.flatMap fun w => dataLanes w.1 w.2

end Sys2Proof.Machine
end

