-- ==== Sys2Proof/Certificates/Slice0/Obligations.lean ====
section
/-! DEFINITION. The statements for the provers: what the spec's numbered rules say of the core. -/

open Sys2Proof Sys2Proof.Machine

/-! ## Encoding -/

/-- 30_encoding.md R75, R77, R79: the decoder reads every encoded command back, with every operand at every value that
its field admits. -/
def Obligations.DecodeOfEncodeIsTheCommand : Prop :=
  ∀ i : Instr, i.wf = true → decode (encode i) = .command i

/-- 30_encoding.md R76, R77: a word that decodes to a command is that command's one encoding, so no two words with
different bits mean the same command, and WRITE keeps all of DATA. -/
def Obligations.EncodeOfDecodedWordIsTheWord : Prop :=
  ∀ (c : Command) (i : Instr), decode c = .command i →
    i.wf = true ∧ (encode i).cmd = c.cmd ∧ ∀ n data, i = .write n data → (encode i).data = c.data

/-- 30_encoding.md R76 and 60_exceptions.md R202: which command words are illegal, by their fields as numbers, and that
they raise ILLEGAL_COMMAND; every other word selects a command. -/
def Obligations.IllegalWordsRaiseIllegalCommand : Prop :=
  ∀ (c : Command) (s : State),
    (IllegalWord c ↔ ∃ why, decode c = .illegal why) ∧
      (¬ IllegalWord c ↔ ∃ i, decode c = .command i) ∧
      (IllegalWord c → execute c s = .next { s with err := .illegalCommand, result := 0 })

/-- 30_encoding.md R75 and 95_test_vectors.md section 6.1: words written out from the opcode map decode as it says. -/
def Obligations.OpcodeMapWordsDecode : Prop :=
  decode ⟨0x01000040, 0⟩ = .command (.init 64) ∧
    decode ⟨0x02000003, 0x636261⟩ = .command (.write 3 0x636261) ∧
    decode ⟨0x03000000, 0⟩ = .command .sum ∧
    decode ⟨0x04000000, 0⟩ = .command .reset ∧
    decode ⟨0x05000000, 0⟩ = .command .size ∧
    decode ⟨0x00000000, 0⟩ = .illegal .undefinedOpcode ∧
    decode ⟨0x02800000, 0⟩ = .illegal .reservedField ∧
    decode ⟨0x03000001, 0⟩ = .illegal .reservedArg

/-! ## The step -/

/-- 42_commands.md R170, 20_memory.md R61: a step takes the host's next command and runs what it decodes to; an illegal
word ends with ILLEGAL_COMMAND. That a step with no command issued changes nothing is the model's choice (log
entry 3). -/
def Obligations.StepRunsTheNextCommand : Prop :=
  (∀ (s : State) (c : Command) (cs : List Command) (i : Instr),
      s.stream = c :: cs → decode c = .command i → step s = exec i { s with stream := cs }) ∧
    (∀ (s : State) (c : Command) (cs : List Command) (why : Illegal),
      s.stream = c :: cs → decode c = .illegal why →
        step s = .next { s with stream := cs, err := .illegalCommand, result := 0 }) ∧
    ∀ s : State, s.stream = [] → step s = .next s

/-- A table word that decodes is what the next step runs, once it is placed (log entry 4). -/
def Obligations.PlacedWordRunsNext : Prop :=
  ∀ (s : State) (nbits w : Nat) (i : Instr),
    decodeTableWord nbits w = some i → step (s.withFetchWord nbits w) = exec i s

/-- 70_reset_and_hazards.md R238, R239, R240: every command completes, whatever its words and the state: no step faults
or refuses, and each takes one command from the stream (none where none is issued: log entry 3). -/
def Obligations.EveryStepCompletes : Prop :=
  ∀ s : State, ∃ t, step s = .next t ∧ t.stream = s.stream.tail

/-- 20_memory.md R58, R61: as many steps as commands execute the commands of the stream, one at a time and in the order
of issue. -/
def Obligations.StepsExecuteTheStreamInOrder : Prop :=
  ∀ s : State,
    Host.Core.run Sys2Proof.core s.stream.length s = runCommands s.stream { s with stream := [] }

/-! ## The commands -/

/-- 42_commands.md R171, 60_exceptions.md R205: INIT with 1..64 makes a fresh instance, marks DIGEST invalid and returns
OUTLEN; with any other operand it ends with INVALID_PARAMETER and changes nothing else. Nothing else of the state
changes: DIGEST keeps its content. -/
def Obligations.InitCreatesAnInstance : Prop :=
  WordsOf 1 (fun arg _ => .init arg) ∧
    (∀ (outlen : Nat) (s : State), 1 ≤ outlen → outlen ≤ 64 →
      exec (.init outlen) s =
        .next { s with
          hasher := some { outlen := outlen, h := seed outlen, t := { t0 := 0, t1 := 0 }, buf := [] }
          dvalid := false
          err := .ok
          result := BitVec.ofNat 32 outlen }) ∧
    ∀ (outlen : Nat) (s : State), outlen < 1 ∨ 64 < outlen →
      exec (.init outlen) s = .next { s with err := .invalidParameter, result := 0 }

/-- 42_commands.md R172, 60_exceptions.md R203: WRITE absorbs the n low bytes of DATA in order and returns n; n > 8 is
BAD_LENGTH, whether an instance exists or not, and no instance is NOT_CONFIGURED. Nothing else of the state changes. -/
def Obligations.WriteAbsorbsItsBytes : Prop :=
  WordsOf 2 (fun arg data => .write arg data) ∧
    (∀ (n : Nat) (data : BitVec 64) (s : State) (x : Hasher), n ≤ 8 → s.hasher = some x →
      exec (.write n data) s =
        .next { s with
          hasher := some ((dataLanes n data).foldl absorb x)
          err := .ok
          result := BitVec.ofNat 32 n }) ∧
    (∀ (n : Nat) (data : BitVec 64) (s : State), 8 < n →
      exec (.write n data) s = .next { s with err := .badLength, result := 0 }) ∧
    ∀ (n : Nat) (data : BitVec 64) (s : State), n ≤ 8 → s.hasher = none →
      exec (.write n data) s = .next { s with err := .notConfigured, result := 0 }

/-- 42_commands.md R173, 41_block_processing.md R145, R146: SUM compresses the padded buffer as the final block, with the
true byte count, and puts the first OUTLEN bytes of the result, little-endian, and then 0x00 into DIGEST. The hash
state is unchanged. -/
def Obligations.SumComputesTheDigest : Prop :=
  WordsOf 3 (fun _ _ => .sum) ∧
    (∀ (s : State) (x : Hasher), s.hasher = some x →
      let block := x.buf ++ List.replicate (128 - x.buf.length) 0#8
      let h' := compress x.h (decodeBlock block) (x.t.add (BitVec.ofNat 64 x.buf.length)) true
      exec .sum s =
        .next { s with
          digest := some (Vector.ofFn fun i : Fin 64 =>
            if i.val < x.outlen then (h'[i.val / 8]).extractLsb' (8 * (i.val % 8)) 8 else 0)
          dvalid := true
          err := .ok
          result := BitVec.ofNat 32 x.outlen }) ∧
    ∀ s : State, s.hasher = none → exec .sum s = .next { s with err := .notConfigured, result := 0 }

/-- 42_commands.md R174: RESET returns the instance to what INIT with the same OUTLEN makes, marks DIGEST invalid and
returns 0. Nothing else of the state changes. -/
def Obligations.ResetRestoresTheSeed : Prop :=
  WordsOf 4 (fun _ _ => .reset) ∧
    (∀ (s : State) (x : Hasher), s.hasher = some x →
      exec .reset s =
        .next { s with
          hasher := some { outlen := x.outlen, h := seed x.outlen, t := { t0 := 0, t1 := 0 }, buf := [] }
          dvalid := false
          err := .ok
          result := 0 }) ∧
    ∀ s : State, s.hasher = none → exec .reset s = .next { s with err := .notConfigured, result := 0 }

/-- 42_commands.md R175: SIZE returns OUTLEN and has no other effect. -/
def Obligations.SizeReportsTheOutputLength : Prop :=
  WordsOf 5 (fun _ _ => .size) ∧
    (∀ (s : State) (x : Hasher), s.hasher = some x →
      exec .size s = .next { s with err := .ok, result := BitVec.ofNat 32 x.outlen }) ∧
    ∀ s : State, s.hasher = none → exec .size s = .next { s with err := .notConfigured, result := 0 }

/-! ## Errors -/

/-- 60_exceptions.md R206 (with R202 to R205): the error a command ends with, in the order of priority: checks on the
command word come before checks on the state. -/
def Obligations.ErrorsAreReportedByPriority : Prop :=
  ∀ (c : Command) (s : State), ∃ t, execute c s = .next t ∧
    t.err =
      if IllegalWord c then .illegalCommand
      else if opOf c = 2 ∧ 8 < argOf c then .badLength
      else if opOf c ≠ 1 ∧ s.cfg = false then .notConfigured
      else if opOf c = 1 ∧ (argOf c < 1 ∨ 64 < argOf c) then .invalidParameter
      else .ok

/-- 60_exceptions.md R207: a command that fails a check sets ERR to the error and RESULT to 0 and changes nothing
else. -/
def Obligations.FailedCommandChangesOnlyErrAndResult : Prop :=
  ∀ (c : Command) (s : State) (e : ErrCode), check (decode c) s = e → e ≠ .ok →
    execute c s = .next { s with err := e, result := 0 }

/-- 42_commands.md R176: a command that passes all checks ends with ERR = OK, so that STATUS then holds the two bits CFG
and DVALID alone. -/
def Obligations.PassedChecksEndWithOk : Prop :=
  ∀ (c : Command) (s : State), check (decode c) s = .ok →
    ∃ t, execute c s = .next t ∧ t.err = .ok ∧
      t.status = BitVec.ofNat 32 (t.cfg.toNat * 2 ^ 8 + t.dvalid.toNat * 2 ^ 9)

/-- 60_exceptions.md R208: ERR is not sticky: what a command does depends on neither the outcome nor the RESULT of the
one before it. -/
def Obligations.ErrIsNotSticky : Prop :=
  ∀ (c : Command) (s : State) (e : ErrCode) (r : BitVec 32),
    execute c { s with err := e, result := r } = execute c s

/-! ## Which command writes which state -/

/-- 10_state.md R25: RESULT is the return value of the most recent command, 0 after an error, and 0 at power-on. -/
def Obligations.ResultIsTheReturnValue : Prop :=
  State.reset.result = 0 ∧
    ∀ (c : Command) (s t : State), execute c s = .next t →
      t.result =
        if t.err ≠ .ok then 0
        else if opOf c = 1 ∨ opOf c = 2 then BitVec.ofNat 32 (argOf c)
        else if opOf c = 3 ∨ opOf c = 5 then BitVec.ofNat 32 ((s.hasher.map Hasher.outlen).getD 0)
        else 0

/-- 10_state.md R33: DVALID is set by a successful SUM, cleared by a successful INIT or RESET and by power-on reset, and
unchanged by WRITE, SIZE and every error. -/
def Obligations.DvalidFollowsSumInitReset : Prop :=
  State.reset.dvalid = false ∧
    ∀ (c : Command) (s t : State), execute c s = .next t →
      t.dvalid =
        if t.err ≠ .ok then s.dvalid
        else if opOf c = 3 then true
        else if opOf c = 1 ∨ opOf c = 4 then false
        else s.dvalid

/-- 10_state.md R26: DIGEST keeps its content, valid or not, across every command but a successful SUM. -/
def Obligations.DigestIsWrittenOnlyBySum : Prop :=
  ∀ (c : Command) (s t : State), execute c s = .next t → (t.err ≠ .ok ∨ opOf c ≠ 3) → t.digest = s.digest

/-- 10_state.md R31, R32: OUTLEN is written only by a successful INIT; CFG is set by a successful INIT, and no command
clears it. -/
def Obligations.OutlenAndCfgAreWrittenOnlyByInit : Prop :=
  ∀ (c : Command) (s t : State), execute c s = .next t →
    (t.err = .ok → opOf c = 1 → t.cfg = true ∧ t.hasher.map Hasher.outlen = some (argOf c)) ∧
      ((t.err ≠ .ok ∨ opOf c ≠ 1) → t.cfg = s.cfg ∧ t.hasher.map Hasher.outlen = s.hasher.map Hasher.outlen) ∧
      (s.cfg = true → t.cfg = true)

/-- 10_state.md R29, R30, R40: H, T and BUF are written only by successful INIT, WRITE and RESET commands. -/
def Obligations.HashStateIsWrittenOnlyByInitWriteReset : Prop :=
  ∀ (c : Command) (s t : State), execute c s = .next t →
    (t.err ≠ .ok ∨ (opOf c ≠ 1 ∧ opOf c ≠ 2 ∧ opOf c ≠ 4)) → t.hasher = s.hasher

/-- 10_state.md R22: DATA is read only by WRITE. -/
def Obligations.DataIsReadOnlyByWrite : Prop :=
  ∀ (cmd : BitVec 32) (d d' : BitVec 64) (s : State), opOf ⟨cmd, d⟩ ≠ 2 →
    execute ⟨cmd, d⟩ s = execute ⟨cmd, d'⟩ s

/-- 30_encoding.md R74: the bytes k >= n of DATA are ignored. -/
def Obligations.WriteIgnoresTheUpperLanes : Prop :=
  ∀ (n : Nat) (d d' : BitVec 64) (s : State), (∀ i, i < 8 * n → d.getLsbD i = d'.getLsbD i) →
    exec (.write n d) s = exec (.write n d') s

/-- 20_memory.md R59: INIT, SUM, RESET and SIZE are idempotent. -/
def Obligations.InitSumResetSizeAreIdempotent : Prop :=
  ∀ (i : Instr) (s t : State), (∀ n data, i ≠ .write n data) → exec i s = .next t → exec i t = .next t

/-! ## Status, power-on and invariants -/

/-- 10_state.md R23, R24 and 60_exceptions.md R201: STATUS as a number, the codes of ERR, and the bits that read 0. -/
def Obligations.StatusWordLayout : Prop :=
  State.reset.status = 0 ∧ ∀ s : State,
    s.status.toNat = s.err.code.toNat + s.cfg.toNat * 2 ^ 8 + s.dvalid.toNat * 2 ^ 9 ∧
      s.status.extractLsb' 0 4 = s.err.code ∧ s.status.extractLsb' 4 4 = 0 ∧ s.status.extractLsb' 10 22 = 0 ∧
      s.err.code =
        (match s.err with
        | .ok => 0
        | .invalidParameter => 1
        | .notConfigured => 2
        | .illegalCommand => 3
        | .badLength => 4)

/-- 10_state.md R38, 70_reset_and_hazards.md R230: the state after power-on reset. That the elements without a value are
absent is how the model writes R20 (log entry 1), and the empty stream is the model's own field (log entry 2). -/
def Obligations.PowerOnValues : Prop :=
  State.reset.status = 0 ∧ State.reset.err = .ok ∧ State.reset.cfg = false ∧ State.reset.dvalid = false ∧
    State.reset.result = 0 ∧ State.reset.digest = none ∧ State.reset.hasher = none ∧ State.reset.stream = []

/-- 10_state.md R39: the invariants hold after power-on reset. -/
def Obligations.InvariantsHoldAtPowerOn : Prop := State.reset.Inv

/-- 10_state.md R39, 70_reset_and_hazards.md R236: every step keeps the invariants, from every state that has them. -/
def Obligations.EveryStepKeepsTheInvariants : Prop :=
  ∀ s t : State, s.Inv → step s = .next t → t.Inv

/-! ## The compression function -/

/-- 40_compression.md R103: bit i of ROTR(x, n) is bit (i + n) mod 64 of x, for the four distances used. -/
def Obligations.RotrMovesBits : Prop :=
  ∀ (x : Word) (n i : Nat), n ∈ [16, 24, 32, 63] → i < 64 →
    (rotr x n).getLsbD i = x.getLsbD ((i + n) % 64)

/-- 40_compression.md R104, R105: the eight statements of G, in order, with the rotations 32, 24, 16 and 63 to the right. -/
def Obligations.MixGRunsItsEightStatements : Prop :=
  ∀ (a b c d x y : Word),
    let a1 := a + b + x
    let d1 := (d ^^^ a1).rotateRight 32
    let c1 := c + d1
    let b1 := (b ^^^ c1).rotateRight 24
    let a2 := a1 + b1 + y
    let d2 := (d1 ^^^ a2).rotateRight 16
    let c2 := c1 + d2
    let b2 := (b1 ^^^ c2).rotateRight 63
    mixG { a := a, b := b, c := c, d := d } x y = { a := a2, b := b2, c := c2, d := d2 }

/-- 40_compression.md R109: the sixteen words of the working vector before the first round. -/
def Obligations.WorkVectorStartsFromChainAndIv : Prop :=
  ∀ (h : ChainValue) (t : Counter) (f : Bool),
    let v := workVector h t f
    (∀ i : Fin 8, v[i.val] = h[i]) ∧
      (∀ i : Fin 4, v[8 + i.val] = iv[i.val]) ∧
      v[12] = iv[4] ^^^ t.value.extractLsb' 0 64 ∧ v[13] = iv[5] ^^^ t.value.extractLsb' 64 64 ∧
      v[14] = (if f then ~~~ iv[6] else iv[6]) ∧ v[15] = iv[7]

/-- 40_compression.md R110, R111: word i of the new chain value, after rounds 0 to 11 in order. -/
def Obligations.CompressFeedsForward : Prop :=
  ∀ (h : ChainValue) (m : MessageBlock) (t : Counter) (f : Bool) (i : Fin 8),
    let v := [0, 1, 2, 3, 4, 5, 6, 7, 8, 9, 10, 11].foldl (mixRound m) (workVector h t f)
    (compress h m t f)[i] = h[i] ^^^ v[i.val] ^^^ v[i.val + 8]

/-- 40_compression.md R101, R102, R106, R107: a round is the eight writes of G in the order 0..7: step i reads and writes
its four slots and takes the message words M[s[2i]] and M[s[2i+1]], where s = SIGMA[r mod 10]. Every schedule row is a
permutation of 0..15, so a round reads each message word once, and its eight steps write every slot of V twice. -/
def Obligations.RoundUsesEveryWordOnceAndEverySlotTwice : Prop :=
  (∀ (m : MessageBlock) (v₀ : WorkVector) (r : Nat),
    let s := sigma[r % 10]
    let g (v : WorkVector) (a b c d : Fin 16) (x y : Word) : WorkVector :=
      let q := mixG { a := v[a], b := v[b], c := v[c], d := v[d] } x y
      (((v.set a q.a).set b q.b).set c q.c).set d q.d
    let v := g v₀ 0 4 8 12 m[s[0]] m[s[1]]
    let v := g v 1 5 9 13 m[s[2]] m[s[3]]
    let v := g v 2 6 10 14 m[s[4]] m[s[5]]
    let v := g v 3 7 11 15 m[s[6]] m[s[7]]
    let v := g v 0 5 10 15 m[s[8]] m[s[9]]
    let v := g v 1 6 11 12 m[s[10]] m[s[11]]
    let v := g v 2 7 8 13 m[s[12]] m[s[13]]
    let v' := g v 3 4 9 14 m[s[14]] m[s[15]]
    mixRound m v₀ r = v') ∧
    (∀ r : Fin 12, ∀ k : Fin 16, (scheduleRow r.val).toList.count k = 1) ∧
    ∀ k : Fin 16, (stepSlots.toList.flatMap fun p => [p.a, p.b, p.c, p.d]).count k = 2

/-- 40_compression.md R113: the four column steps of a round may be done in any order, and so may the four diagonal
steps. -/
def Obligations.ColumnAndDiagonalStepsCommute : Prop :=
  ∀ (m : MessageBlock) (row : Vector (Fin 16) 16) (v : WorkVector) (steps : List (Fin 8)),
    (steps.Perm [0, 1, 2, 3] → mixSteps m row v steps = mixSteps m row v [0, 1, 2, 3]) ∧
      (steps.Perm [4, 5, 6, 7] → mixSteps m row v steps = mixSteps m row v [4, 5, 6, 7])

/-! ## The hash state -/

/-- 41_block_processing.md R140, R141: the seed's first word carries the output length, the others are the IV's, and
different lengths have different seeds. -/
def Obligations.SeedEncodesTheOutputLength : Prop :=
  (∀ n, 1 ≤ n → n ≤ 64 →
      (seed n)[0] = iv[0] ^^^ 0x0000000001010000 ^^^ BitVec.ofNat 64 n ∧
        ∀ i : Fin 8, i.val ≠ 0 → (seed n)[i] = iv[i]) ∧
    ∀ n n', 1 ≤ n → n ≤ 64 → 1 ≤ n' → n' ≤ 64 → seed n = seed n' → n = n'

/-- 41_block_processing.md R142, 20_memory.md R52, R55: byte lane k of message word j is block byte 8j + k. -/
def Obligations.MessageWordsAreLittleEndian : Prop :=
  ∀ (block : List Byte) (j : Fin 16) (k : Fin 8), block.length = 128 →
    some (((decodeBlock block)[j]).extractLsb' (8 * k.val) 8) = block[8 * j.val + k.val]?

/-- 10_state.md R26: byte i of the 512-bit register DIGEST is its bits 8i+7 to 8i. -/
def Obligations.DigestBytesAreLanesOfTheRegister : Prop :=
  ∀ (d : Digest) (i : Fin 64), (digestNumber d).extractLsb' (8 * i.val) 8 = d[i]

/-- 41_block_processing.md R144: the addition on two words is addition modulo 2^128, for the k that occur. -/
def Obligations.CounterAdditionIsModulo2Pow128 : Prop :=
  ∀ (t : Counter) (k : Nat), k ≤ 128 →
    (t.add (BitVec.ofNat 64 k)).value.toNat = (t.value.toNat + k) % 2 ^ 128

/-- 41_block_processing.md R143, 10_state.md R28: a byte is appended, a full buffer being compressed first with the counter
already advanced; so from 0..128 pending bytes there come 1..128. -/
def Obligations.AbsorbDefersTheFullBlock : Prop :=
  ∀ (x : Hasher) (b : Byte),
    (x.buf.length = 128 →
      absorb x b =
        { outlen := x.outlen, h := compress x.h (decodeBlock x.buf) (x.t.add 128) false, t := x.t.add 128,
          buf := [b] }) ∧
      (x.buf.length ≠ 128 → absorb x b = { x with buf := x.buf ++ [b] }) ∧
      (x.buf.length ≤ 128 → 1 ≤ (absorb x b).buf.length ∧ (absorb x b).buf.length ≤ 128)

/-- 42_commands.md R172, 41_block_processing.md R143: one WRITE compresses at most one block, the first 128 bytes of what
was pending and what it brings, and only when more than 128 bytes are there. -/
def Obligations.WriteCompressesAtMostOneBlock : Prop :=
  ∀ (s : State) (x : Hasher) (n : Nat) (data : BitVec 64), s.hasher = some x → x.buf.length ≤ 128 → n ≤ 8 →
    let bytes := x.buf ++ dataLanes n data
    ∃ t, exec (.write n data) s = .next t ∧
      t.hasher =
        if bytes.length ≤ 128 then some { x with buf := bytes }
        else some
          { outlen := x.outlen, h := compress x.h (decodeBlock (bytes.take 128)) (x.t.add 128) false,
            t := x.t.add 128, buf := bytes.drop 128 }

/-- 41_block_processing.md R147, 10_state.md R30, R39: once a byte has been written, what is pending is the last block, 1 to
128 bytes, and the counter counts the whole blocks before it. -/
def Obligations.PendingBytesAreTheLastBlock : Prop :=
  ∀ (n : Nat) (bytes : List Byte), bytes ≠ [] →
    let x := absorbAll (freshHasher n) bytes
    ∃ before, bytes = before ++ x.buf ∧ before.length % 128 = 0 ∧ 1 ≤ x.buf.length ∧ x.buf.length ≤ 128 ∧
      x.t.value.toNat = before.length % 2 ^ 128

/-- 41_block_processing.md R148, R152: the hash state after a byte sequence, in closed form: block i was compressed with
the counter 128·i. -/
def Obligations.AbsorbedBytesHaveClosedForm : Prop :=
  ∀ (n : Nat) (bytes : List Byte),
    absorbAll (freshHasher n) bytes = Message.hasher { outlen := n, bytes := bytes }

/-- 41_block_processing.md R153: the counter and the number of pending bytes at the boundary lengths. -/
def Obligations.BoundaryLengths : Prop :=
  ∀ (n : Nat) (bytes : List Byte) (row : Nat × Nat × Nat × Nat),
    row ∈ [(0, 0, 0, 0), (1, 0, 1, 1), (127, 0, 127, 127), (128, 0, 128, 128), (129, 128, 1, 129),
      (256, 128, 128, 256)] →
    bytes.length = row.1 →
    let x := absorbAll (freshHasher n) bytes
    x.t.value.toNat = row.2.1 ∧ x.buf.length = row.2.2.1 ∧
      (x.t.add (BitVec.ofNat 64 x.buf.length)).value.toNat = row.2.2.2

/-! ## Whole runs -/

/-- 20_memory.md R61: every command keeps the hash state the one that the message written so far stands for. -/
def Obligations.CommandsRefineTheByteStream : Prop :=
  ∀ (c : Command) (s : State) (m : Option Message), Represents m s →
    ∃ t, execute c s = .next t ∧ Represents (messageAfter m (decode c)) t

/-- 20_memory.md R61, 70_reset_and_hazards.md R239: after any sequence of commands from power-on, the hash state is the one
that the bytes of the successful WRITEs since the last successful INIT or RESET stand for. That the steps leave no command
to issue speaks of the model's own field (log entry 2). -/
def Obligations.RunFromPowerOnHashesTheByteStream : Prop :=
  ∀ cs : List Command, ∃ t,
    Host.Core.run Sys2Proof.core cs.length (powerOn cs) = .next t ∧
      Represents (cs.foldl (fun m c => messageAfter m (decode c)) none) t ∧ t.stream = []

/-- 41_block_processing.md R152: SUM gives the digest of the message written so far, in closed form. -/
def Obligations.SumGivesTheMessageDigest : Prop :=
  ∀ (s : State) (m : Message), Represents (some m) s →
    ∃ t, exec .sum s = .next t ∧ t.readDigest = some (padDigest m.digest) ∧ t.hasher = s.hasher

/-- 30_encoding.md R82: ONESHOT gives the digest of its bytes from any state, with output length 64 when none is given. -/
def Obligations.OneShotGivesTheMessageDigest : Prop :=
  ∀ (s : State) (o : Option Nat) (bytes : List Byte), 1 ≤ o.getD 64 → o.getD 64 ≤ 64 →
    ∃ t, runCommands (assemble (oneShot o bytes)) s = .next t ∧ t.err = .ok ∧ t.dvalid = true ∧
      t.result = BitVec.ofNat 32 (o.getD 64) ∧
      t.readDigest = some (padDigest (Message.digest { outlen := o.getD 64, bytes := bytes }))

/-- 30_encoding.md R81: WRITES absorbs all its bytes without an error, and its RESULT values add up to the number of
bytes. -/
def Obligations.WritesAbsorbsAllItsBytes : Prop :=
  ∀ (s : State) (x : Hasher) (bytes : List Byte), s.hasher = some x →
    (∃ t, runCommands (assemble (writeS bytes)) s = .next t ∧ t.hasher = some (absorbAll x bytes)) ∧
      ((observations (assemble (writeS bytes)) s).map fun o => o.result.toNat).sum = bytes.length ∧
      NoErrorRecorded (observations (assemble (writeS bytes)) s)

/-- 41_block_processing.md R149: however a byte sequence is split into WRITE commands, zero-length ones too, SUM gives the
digest that absorbing it whole gives. -/
def Obligations.SplitOfTheInputDoesNotMatter : Prop :=
  ∀ (s : State) (x : Hasher) (ws ws' : List (Nat × BitVec 64)), s.hasher = some x →
    (∀ w ∈ ws, w.1 ≤ 8) → (∀ w ∈ ws', w.1 ≤ 8) → writtenBytes ws = writtenBytes ws' →
    ∃ t, runCommands (writeCommands ws ++ [encode .sum]) s = .next t ∧
      runCommands (writeCommands ws' ++ [encode .sum]) s = .next t ∧
      t.hasher = some (absorbAll x (writtenBytes ws)) ∧
      t.readDigest = some (digestOf (absorbAll x (writtenBytes ws)))

/-- 41_block_processing.md R150: SUM after a message, and SUM again after more bytes, give the digests of the message and of
the longer message. -/
def Obligations.SumDoesNotDisturbTheStream : Prop :=
  ∀ (s : State) (m : Message) (more : List Byte), Represents (some m) s →
    ∃ t u v, runCommands [encode .sum] s = .next t ∧
      runCommands [encode .sum] t = .next u ∧
      runCommands (assemble (writeS more ++ [.sum])) u = .next v ∧
      t.readDigest = some (padDigest m.digest) ∧ u.readDigest = t.readDigest ∧
      v.readDigest = some (padDigest (Message.digest { m with bytes := m.bytes ++ more }))

/-- 41_block_processing.md R151: RESET, then writes and a SUM, leaves what INIT with the same output length, the same writes
and a SUM leave, whatever was written before. -/
def Obligations.ResetEqualsFreshInit : Prop :=
  ∀ (s : State) (x : Hasher) (bytes : List Byte), s.hasher = some x → 1 ≤ x.outlen → x.outlen ≤ 64 →
    ∃ t, runCommands (assemble (.reset :: (writeS bytes ++ [.sum]))) s = .next t ∧
      runCommands (assemble (.init x.outlen :: (writeS bytes ++ [.sum]))) s = .next t

/-- 10_state.md R26, 70_reset_and_hazards.md R236, R239: a read of DIGEST while DVALID = 0 gives no value (log entry 17), and
what the register holds then reaches no observation of any run. -/
def Obligations.InvalidDigestIsNeverObserved : Prop :=
  (∀ s : State, s.dvalid = false → s.readDigest = none) ∧
    ∀ (cs : List Command) (s : State) (d : Option Digest), s.dvalid = false →
      observations cs { s with digest := d } = observations cs s

/-- 10_state.md R37: H, T and BUF reach neither STATUS nor RESULT of any run: the host sees them only through
DIGEST. -/
def Obligations.HashStateIsSeenOnlyThroughDigest : Prop :=
  ∀ (cs : List Command) (s s' : State), s.dvalid = s'.dvalid →
    s.hasher.map Hasher.outlen = s'.hasher.map Hasher.outlen →
    (observations cs s).map (fun o => (o.status, o.result)) =
      (observations cs s').map (fun o => (o.status, o.result))
end

