-- ==== Sys2Proof/Laws/Block.lean ====
section
/-! SUPPORT. What the operations on words, bytes and the hash state do, one lemma or two for each. -/

namespace Sys2Proof.Machine

@[simp] theorem laneBytes_length (n : Nat) (data : Word) : (laneBytes n data).length = n := by
  simp [laneBytes]

@[simp] theorem laneBytes_zero (data : Word) : laneBytes 0 data = [] := rfl

@[simp] theorem zeros_length (n : Nat) : (zeros n).length = n := by
  simp [zeros]

/-- A byte lane of a word, bit by bit. -/
theorem byteOf_getLsbD (w : Word) (k i : Nat) :
    (byteOf w k).getLsbD i = (decide (i < 8) && w.getLsbD (8 * k + i)) := by
  simp [byteOf]

/-- Byte `k` of the little-endian word of a byte sequence is the sequence's byte `k` (20_memory.md R55). -/
theorem byteOf_leWord (bs : List Byte) (k : Nat) (hk : k < 8) : byteOf (leWord bs) k = bs.getD k 0 := by
  induction bs generalizing k with
  | nil => apply BitVec.eq_of_getLsbD_eq; intro i hi; simp [byteOf, leWord]
  | cons b bs ih =>
    apply BitVec.eq_of_getLsbD_eq
    intro i hi
    cases k with
    | zero => simp [byteOf, leWord, hi, show i < 64 by omega]
    | succ k =>
      have hbit := congrArg (·.getLsbD i) (ih k (by omega))
      simp only [byteOf_getLsbD, hi, decide_true, Bool.true_and] at hbit
      simp only [byteOf_getLsbD, hi, decide_true, Bool.true_and, leWord, BitVec.getLsbD_or,
        BitVec.getLsbD_shiftLeft, List.getD_cons_succ, ← hbit]
      have h1 : ¬ 8 * (k + 1) + i < 8 := by omega
      have h2 : 8 * (k + 1) + i < 64 := by omega
      have h3 : 8 * (k + 1) + i - 8 = 8 * k + i := by omega
      simp [h1, h2, h3, BitVec.getLsbD_of_ge b (8 * (k + 1) + i) (by omega)]

/-- Absorbing into a buffer with room appends the byte and changes nothing else (41_block_processing.md R143). -/
theorem absorb_room {x : Hasher} (b : Byte) (h : x.buf.length ≠ 128) :
    absorb x b = { x with buf := x.buf ++ [b] } := by
  simp [absorb, h]

/-- Absorbing into a full buffer compresses it, with the counter advanced first, and keeps the byte
(41_block_processing.md R143). -/
theorem absorb_full {x : Hasher} (b : Byte) (h : x.buf.length = 128) :
    absorb x b =
      { x with h := compress x.h (decodeBlock x.buf) (x.t.add 128) false, t := x.t.add 128, buf := [b] } := by
  simp [absorb, h]

@[simp] theorem absorb_outlen (x : Hasher) (b : Byte) : (absorb x b).outlen = x.outlen := by
  unfold absorb
  split <;> rfl

@[simp] theorem absorbAll_nil (x : Hasher) : absorbAll x [] = x := rfl

@[simp] theorem absorbAll_cons (x : Hasher) (b : Byte) (bs : List Byte) :
    absorbAll x (b :: bs) = absorbAll (absorb x b) bs := rfl

/-- Absorbing two sequences one after the other is absorbing their concatenation. -/
theorem absorbAll_append (x : Hasher) (as bs : List Byte) :
    absorbAll x (as ++ bs) = absorbAll (absorbAll x as) bs := List.foldl_append

@[simp] theorem absorbAll_outlen (x : Hasher) (bs : List Byte) : (absorbAll x bs).outlen = x.outlen := by
  induction bs generalizing x with
  | nil => rfl
  | cons b bs ih => simp [ih]

/-- A buffer that holds at most 128 bytes holds 1 to 128 of them after a byte is absorbed (10_state.md R28). -/
theorem absorb_buf_bounds {x : Hasher} (b : Byte) (h : x.buf.length ≤ 128) :
    1 ≤ (absorb x b).buf.length ∧ (absorb x b).buf.length ≤ 128 := by
  by_cases hf : x.buf.length = 128
  · simp [absorb_full b hf]
  · simp [absorb_room b hf]
    omega

@[simp] theorem serialize_length (h : ChainValue) (n : Nat) : (serialize h n).length = n := by
  simp [serialize]

@[simp] theorem finalize_length (x : Hasher) : (finalize x).length = x.outlen := by
  simp [finalize]

/-- Byte `i` of a serialized chain value (41_block_processing.md R146). -/
theorem serialize_getD (h : ChainValue) (n i : Nat) (hi : i < n) :
    (serialize h n).getD i 0 = byteOf (h.toList.getD (i / 8) 0) (i % 8) := by
  simp [serialize, hi]

end Sys2Proof.Machine
end

