-- ==== Sys2Proof/Laws/Commands.lean ====
section
/-! SUPPORT. Everything a command can do, said once for each meaning: if it answers a next state, that state is one of
these. -/

namespace Sys2Proof.Machine

theorem whenConfigured_none {s : State} {f : Hasher → State} (h : s.hasher = none) :
    whenConfigured s f = .next (s.raise .notConfigured) := by
  simp [whenConfigured, h]

theorem whenConfigured_some {s : State} {f : Hasher → State} {x : Hasher} (h : s.hasher = some x) :
    whenConfigured s f = .next (f x) := by
  simp [whenConfigured, h]

/-- A command that needs an instance ends with NOT_CONFIGURED where there is none, and else does its own effect. -/
theorem whenConfigured_cases {s t : State} {f : Hasher → State} (h : whenConfigured s f = .next t) :
    (s.hasher = none ∧ t = s.raise .notConfigured) ∨ ∃ x, s.hasher = some x ∧ t = f x := by
  unfold whenConfigured at h
  split at h
  · cases h; exact .inl ⟨‹_›, rfl⟩
  · cases h; exact .inr ⟨_, ‹_›, rfl⟩

theorem execInit_cases {outlen : Nat} {s t : State} (h : execInit outlen s = .next t) :
    ((outlen < 1 ∨ 64 < outlen) ∧ t = s.raise .invalidParameter) ∨
      (1 ≤ outlen ∧ outlen ≤ 64 ∧
        t = { s with hasher := some (freshHasher outlen), dvalid := false }.complete outlen) := by
  unfold execInit at h
  split at h <;> cases h
  · exact .inl ⟨‹_›, rfl⟩
  · exact .inr ⟨by omega, by omega, rfl⟩

theorem execWrite_cases {n : Nat} {data : BitVec 64} {s t : State} (h : execWrite n data s = .next t) :
    (8 < n ∧ t = s.raise .badLength) ∨ (n ≤ 8 ∧ s.hasher = none ∧ t = s.raise .notConfigured) ∨
      (n ≤ 8 ∧ ∃ x, s.hasher = some x ∧
        t = { s with hasher := some (absorbAll x (laneBytes n data)) }.complete n) := by
  unfold execWrite at h
  split at h
  · cases h; exact .inl ⟨‹_›, rfl⟩
  · rcases whenConfigured_cases h with ⟨h1, h2⟩ | ⟨x, h1, h2⟩
    · exact .inr (.inl ⟨by omega, h1, h2⟩)
    · exact .inr (.inr ⟨by omega, x, h1, h2⟩)

theorem execSum_cases {s t : State} (h : execSum s = .next t) :
    (s.hasher = none ∧ t = s.raise .notConfigured) ∨
      ∃ x, s.hasher = some x ∧
        t = { s with digest := some (digestOf x), dvalid := true }.complete x.outlen :=
  whenConfigured_cases h

theorem execReset_cases {s t : State} (h : execReset s = .next t) :
    (s.hasher = none ∧ t = s.raise .notConfigured) ∨
      ∃ x, s.hasher = some x ∧
        t = { s with hasher := some (freshHasher x.outlen), dvalid := false }.complete 0 :=
  whenConfigured_cases h

theorem execSize_cases {s t : State} (h : execSize s = .next t) :
    (s.hasher = none ∧ t = s.raise .notConfigured) ∨ ∃ x, s.hasher = some x ∧ t = s.complete x.outlen :=
  whenConfigured_cases h

/-- An executed command is either illegal, and raised as such, or the meaning of what it decodes to. -/
theorem execute_cases {c : Command} {s t : State} (h : execute c s = .next t) :
    (∃ why, decode c = .illegal why ∧ t = s.raise .illegalCommand) ∨
      ∃ i, decode c = .command i ∧ exec i s = .next t := by
  unfold execute at h
  split at h
  · exact .inr ⟨_, ‹_›, h⟩
  · cases h; exact .inl ⟨_, ‹_›, rfl⟩

end Sys2Proof.Machine
end

