-- ==== Sys2Proof/Laws/Encoding.lean ====
section
/-! SUPPORT. The fields of a command word as quotients and remainders, and the decoder on them. -/

namespace Sys2Proof

/-- OP is the word divided by 2^24 (30_encoding.md R70). -/
theorem cmdOp_eq (w : BitVec 32) : cmdOp w = w.toNat / 2 ^ 24 := by
  have := w.isLt
  simp only [cmdOp, BitVec.extractLsb'_toNat, Nat.shiftRight_eq_div_pow]
  omega

/-- RSV is the middle 16 bits (30_encoding.md R70). -/
theorem cmdRsv_eq (w : BitVec 32) : cmdRsv w = w.toNat / 2 ^ 8 % 2 ^ 16 := by
  simp [cmdRsv, BitVec.extractLsb'_toNat, Nat.shiftRight_eq_div_pow]

/-- ARG is the low byte (30_encoding.md R70). -/
theorem cmdArg_eq (w : BitVec 32) : cmdArg w = w.toNat % 2 ^ 8 := by
  simp [cmdArg, BitVec.extractLsb'_toNat]

/-- The command word of an instruction as a number (30_encoding.md R79). -/
theorem encode_cmd_toNat (i : Instr) :
    (encode i).cmd.toNat = i.opcode % 256 * 2 ^ 24 + i.argField % 256 := by
  have h : i.argField % 2 ^ 8 < 2 ^ (16 + 8) := by omega
  simp only [encode, BitVec.toNat_append, BitVec.toNat_ofNat, Nat.zero_mod, Nat.zero_shiftLeft, Nat.zero_or]
  rw [← Nat.shiftLeft_add_eq_or_of_lt h, Nat.shiftLeft_eq]
  omega

/-- RSV = 0 in every encoded word (30_encoding.md R70). -/
theorem cmdRsv_encode (i : Instr) : cmdRsv (encode i).cmd = 0 := by
  rw [cmdRsv_eq, encode_cmd_toNat]
  omega

/-- The OP field of an encoded word is the command's opcode. -/
theorem cmdOp_encode (i : Instr) : cmdOp (encode i).cmd = i.opcode := by
  have h : i.opcode < 256 := by cases i <;> simp [Instr.opcode]
  rw [cmdOp_eq, encode_cmd_toNat]
  omega

end Sys2Proof
end

