-- ==== Sys2Proof/Laws/PerInstr.lean ====
section
/-! SUPPORT. One lemma per instruction: the fields of its encoded word. -/

namespace Sys2Proof.Laws.EncodedFields

/-- The encoded word of a well-formed instruction carries its opcode, RSV = 0 and its operand (30_encoding.md R70,
R75). -/
def Statement (i : Instr) : Prop :=
  i.wf = true →
    cmdOp (encode i).cmd = i.opcode ∧ cmdRsv (encode i).cmd = 0 ∧ cmdArg (encode i).cmd = i.argField

/-- ARG holds an operand that fits it. -/
theorem argField_of_lt {i : Instr} (h : i.argField < 256) : cmdArg (encode i).cmd = i.argField := by
  rw [cmdArg_eq, encode_cmd_toNat]
  omega

theorem init (outlen : Nat) : Statement (.init outlen) := fun h =>
  ⟨cmdOp_encode _, cmdRsv_encode _, argField_of_lt (of_decide_eq_true h)⟩

theorem write (n : Nat) (data : BitVec 64) : Statement (.write n data) := fun h =>
  ⟨cmdOp_encode _, cmdRsv_encode _, argField_of_lt (of_decide_eq_true h)⟩

theorem sum : Statement .sum := fun _ => ⟨cmdOp_encode _, cmdRsv_encode _, argField_of_lt (by decide)⟩

theorem reset : Statement .reset := fun _ => ⟨cmdOp_encode _, cmdRsv_encode _, argField_of_lt (by decide)⟩

theorem size : Statement .size := fun _ => ⟨cmdOp_encode _, cmdRsv_encode _, argField_of_lt (by decide)⟩

end Sys2Proof.Laws.EncodedFields
end

