-- ==== Sys2Proof/Laws/State.lean ====
section
/-! SUPPORT. One lemma per field and update of the state, and what the state is made of: no later proof unfolds an update. -/

namespace Sys2Proof.Machine

variable (s : State) (e : ErrCode) (r : Nat) (c : Command) (cs : List Command)

@[simp] theorem raise_stream : (s.raise e).stream = s.stream := rfl
@[simp] theorem raise_err : (s.raise e).err = e := rfl
@[simp] theorem raise_dvalid : (s.raise e).dvalid = s.dvalid := rfl
@[simp] theorem raise_result : (s.raise e).result = 0 := rfl
@[simp] theorem raise_digest : (s.raise e).digest = s.digest := rfl
@[simp] theorem raise_hasher : (s.raise e).hasher = s.hasher := rfl

@[simp] theorem complete_stream : (s.complete r).stream = s.stream := rfl
@[simp] theorem complete_err : (s.complete r).err = .ok := rfl
@[simp] theorem complete_dvalid : (s.complete r).dvalid = s.dvalid := rfl
@[simp] theorem complete_result : (s.complete r).result = BitVec.ofNat 32 r := rfl
@[simp] theorem complete_digest : (s.complete r).digest = s.digest := rfl
@[simp] theorem complete_hasher : (s.complete r).hasher = s.hasher := rfl

@[simp] theorem issueNext_stream : (s.issueNext c).stream = c :: s.stream := rfl
@[simp] theorem issueNext_err : (s.issueNext c).err = s.err := rfl
@[simp] theorem issueNext_dvalid : (s.issueNext c).dvalid = s.dvalid := rfl
@[simp] theorem issueNext_result : (s.issueNext c).result = s.result := rfl
@[simp] theorem issueNext_digest : (s.issueNext c).digest = s.digest := rfl
@[simp] theorem issueNext_hasher : (s.issueNext c).hasher = s.hasher := rfl

@[simp] theorem powerOn_stream : (powerOn cs).stream = cs := rfl
@[simp] theorem powerOn_err : (powerOn cs).err = .ok := rfl
@[simp] theorem powerOn_dvalid : (powerOn cs).dvalid = false := rfl
@[simp] theorem powerOn_result : (powerOn cs).result = 0 := rfl
@[simp] theorem powerOn_digest : (powerOn cs).digest = none := rfl
@[simp] theorem powerOn_hasher : (powerOn cs).hasher = none := rfl

@[simp] theorem freshHasher_outlen (n : Nat) : (freshHasher n).outlen = n := rfl
@[simp] theorem freshHasher_h (n : Nat) : (freshHasher n).h = seed n := rfl
@[simp] theorem freshHasher_t (n : Nat) : (freshHasher n).t = { t0 := 0, t1 := 0 } := rfl
@[simp] theorem freshHasher_buf (n : Nat) : (freshHasher n).buf = [] := rfl

/-- CFG = 0 says that no instance exists (10_state.md R32). -/
theorem cfg_eq_false_iff : s.cfg = false ↔ s.hasher = none := by
  simp [State.cfg]

/-- CFG = 1 says that an instance exists (10_state.md R32). -/
theorem cfg_eq_true_iff : s.cfg = true ↔ ∃ x, s.hasher = some x := by
  simp [State.cfg, Option.isSome_iff_exists]

/-- Taking the next command answers nothing exactly when the host issues none. -/
theorem nextCommand_eq_none_iff : nextCommand s = none ↔ s.stream = [] := by
  unfold nextCommand
  split <;> simp_all

/-- Taking the next command takes the head of the stream and changes nothing else. -/
theorem nextCommand_cases {s s' : State} {c : Command} (h : nextCommand s = some (c, s')) :
    ∃ cs, s.stream = c :: cs ∧ s' = { s with stream := cs } := by
  unfold nextCommand at h
  split at h
  · cases h
  · rename_i d ds hs
    cases h
    exact ⟨ds, hs, rfl⟩

/-- A command put in front of the stream is the next one taken. -/
@[simp] theorem nextCommand_issueNext : nextCommand (s.issueNext c) = some (c, s) := rfl

end Sys2Proof.Machine
end

