-- ==== Sys2Proof/Tests/Slice0.lean ====
section
/-! SUPPORT. The model's own tests. Expected values come from 95_test_vectors.md and from the rules' own examples; the
witnesses show states and operands that meet the hypotheses of the statements. -/

namespace Sys2Proof.Tests

open Sys2Proof Sys2Proof.Machine

/-! ## States to test on -/

/-- A configured core of a given output length with given pending bytes. -/
def configured (outlen : Nat) (buf : List Byte := []) : State :=
  { State.reset with hasher := some { freshHasher outlen with buf := buf } }

/-- seq(n) of 95_test_vectors.md section 5: the bytes 0x00, 0x01, … -/
def seqBytes (n : Nat) : List Byte := (List.range n).map (BitVec.ofNat 8)

/-- The state an outcome ends in; power-on reset where it ends in none. -/
def stateOf (o : Host.Outcome State Fault Refusal) : State :=
  match o with
  | .next s => s
  | .fault _ => State.reset
  | .refused _ => State.reset

/-- The pair of STATUS and RESULT that a command word leaves (95_test_vectors.md section 6.1). -/
def verdict (cmd : BitVec 32) (s : State) : BitVec 32 × BitVec 32 :=
  let t := stateOf (execute { cmd := cmd, data := 0x0807060504030201 } s)
  (t.status, t.result)

/-! ## WellFormed: each check refuses an ill-formed term -/

theorem test_wf_init_operand_too_wide : (Instr.init 256).wf = false := by decide
theorem test_wf_write_count_too_wide : (Instr.write 256 0).wf = false := by decide

/-! ## Decode: words written out from 30_encoding.md R75 (OP, RSV and ARG bit by bit) -/

theorem test_decode_init :
    decode ⟨0b00000001000000000000000001000000, 0⟩ = .command (.init 64) := by decide
theorem test_decode_write :
    decode ⟨0b00000010000000000000000000000011, 0x636261⟩ = .command (.write 3 0x636261) := by decide
theorem test_decode_sum : decode ⟨0b00000011000000000000000000000000, 0⟩ = .command .sum := by decide
theorem test_decode_reset : decode ⟨0b00000100000000000000000000000000, 0⟩ = .command .reset := by decide
theorem test_decode_size : decode ⟨0b00000101000000000000000000000000, 0⟩ = .command .size := by decide
theorem test_decode_out_of_range_operand : decode ⟨0x020000FF, 7⟩ = .command (.write 255 7) := by decide
theorem test_decode_undefined_opcode : decode ⟨0x06000000, 0⟩ = .illegal .undefinedOpcode := by decide
theorem test_decode_reserved_field : decode ⟨0x01000100, 0⟩ = .illegal .reservedField := by decide
theorem test_decode_reserved_arg : decode ⟨0x04000080, 0⟩ = .illegal .reservedArg := by decide
theorem test_table_word : decodeTableWord 32 0x02000008 = some (.write 8 0) := by decide
theorem test_table_word_with_data :
    decodeTableWord 96 0x080706050403020102000008 = some (.write 8 0x0807060504030201) := by decide
theorem test_table_word_illegal : decodeTableWord 32 0x03010000 = none := by decide

/-- 95_test_vectors.md section 8, program P1: the words of its commands. -/
theorem test_encode_program_words :
    assemble [.init 64, .write 3 0x636261, .sum, .size] =
      [⟨0x01000040, 0⟩, ⟨0x02000003, 0x636261⟩, ⟨0x03000000, 0⟩, ⟨0x05000000, 0⟩] := by decide

/-! ## The assembler's lines (30_encoding.md R79 to R82) -/

theorem test_parse_write :
    parseLine "WRITE 3, 0x636261 ; abc".toList = some [.command (.write 3 0x636261)] := by decide
theorem test_parse_word :
    parseLine ".word 0x07000000, 0".toList = some [.word ⟨0x07000000, 0⟩] := by decide
theorem test_parse_rejects_wide_operand : parseLine "INIT 256".toList = none := by decide
theorem test_writeS_chunks :
    writeS [1, 2, 3, 4, 5, 6, 7, 8, 9] = [.write 8 0x0807060504030201, .write 1 9] := by decide
theorem test_writeS_empty : writeS [] = [.write 0 0] := by decide
theorem test_oneShot_default_length : oneShot none [0x61] = [.init 64, .write 1 0x61, .sum] := by decide

/-! ## Primitives (95_test_vectors.md sections 3 and 4) -/

theorem test_rotr_24 : rotr 0x0123456789ABCDEF 24 = 0xABCDEF0123456789 := by decide
theorem test_rotr_63 : rotr 0x8000000000000000 63 = 1 := by decide
theorem test_mixG_first_of_abc :
    mixG ⟨0x6A09E667F2BDC948, 0x510E527FADE682D1, 0x6A09E667F3BCC908, 0x510E527FADE682D2⟩ 0x636261 0 =
      ⟨0xF0C9AA0F86491DEA, 0xB7DEFC3D0277E11F, 0xEE5E0F39647A9FFF, 0x7772FC2886A76C5F⟩ := by decide
theorem test_mixG_wraps_twice :
    mixG ⟨0xFFFFFFFFFFFFFFFF, 0xFFFFFFFFFFFFFFFF, 0xFFFFFFFFFFFFFFFF, 0xFFFFFFFFFFFFFFFF⟩
        0xFFFFFFFFFFFFFFFF 0xFFFFFFFFFFFFFFFF =
      ⟨0x000000FFFFFFFDFC, 0xFBF801FBFE0403FD, 0xFDFC000200FDFFFE, 0xFDFC000000FDFFFF⟩ := by decide
theorem test_counter_carries : Counter.add ⟨0xFFFFFFFFFFFFFF80, 0⟩ 128 = ⟨0, 1⟩ := by decide
theorem test_counter_wraps :
    Counter.add ⟨0xFFFFFFFFFFFFFFFF, 0xFFFFFFFFFFFFFFFF⟩ 1 = ⟨0, 0⟩ := by decide
theorem test_seed : (seed 32)[0] = 0x6A09E667F2BDC928 ∧ (seed 32)[7] = 0x5BE0CD19137E2179 := by decide +kernel
theorem test_decodeBlock : (decodeBlock (seqBytes 128))[15] = 0x7F7E7D7C7B7A7978 := by decide +kernel
theorem test_serialize_part_of_a_word :
    serialize #v[0x03590142F7026A78, 0x72D2522585FDC6C6, 0, 0, 0, 0, 0, 0] 10 =
      [0x78, 0x6a, 0x02, 0xf7, 0x42, 0x01, 0x59, 0x03, 0xc6, 0xc6] := by decide +kernel

/-- The working vector of "abc" after round 0 and after round 1: column 0 and the last diagonal. -/
theorem test_two_rounds_of_abc :
    let m := decodeBlock ([0x61, 0x62, 0x63] ++ zeros 125)
    let v := mixRound m (mixRound m (workVector (seed 64) ⟨3, 0⟩ true) 0) 1
    (v[0], v[4], v[8], v[12]) =
      (0x53281E83806010F2, 0xBAABDBB2F386D9AE, 0x224E6A3369224F96, 0x92A3AAAA6D952B7F) := by decide +kernel

/-! ## The commands, one step each (95_test_vectors.md sections 5, 6 and 8) -/

theorem test_init_at_power_on :
    let t := stateOf (exec (.init 64) State.reset)
    t.status = 0x100 ∧ t.result = 64 ∧ t.hasher = some (freshHasher 64) := by decide +kernel
theorem test_init_65_keeps_the_instance :
    exec (.init 65) (configured 64 [0x61]) =
      .next { configured 64 [0x61] with err := .invalidParameter, result := 0 } := rfl
theorem test_write_abc :
    let t := stateOf (exec (.write 3 0x636261) (configured 64))
    t.result = 3 ∧ t.hasher.map Hasher.buf = some [0x61, 0x62, 0x63] := by decide +kernel
/-- Section 6.2: 124 zero bytes pending, then a WRITE of 8 that crosses the boundary. -/
theorem test_write_across_the_boundary :
    (stateOf (exec (.write 8 0x1122334455667788) (configured 64 (zeros 124)))).hasher.map (fun x => (x.t, x.buf)) =
      some (⟨128, 0⟩, [0x44, 0x33, 0x22, 0x11]) := by decide +kernel
/-- Section 6.2: H[0] after 129 bytes: block 1 is compressed with t = 128 and f = 0. -/
theorem test_absorb_129th_byte :
    (absorb { freshHasher 64 with buf := seqBytes 128 } 0x80).h[0] = 0xFFA0852A267EB85A := by decide +kernel
/-- Section 5: the digest of "abc", OUTLEN 64, as the 512-bit register. -/
theorem test_sum_abc :
    (stateOf (exec .sum (configured 64 [0x61, 0x62, 0x63]))).readDigest.map (fun d => d.toList.take 8) =
      some [0xba, 0x80, 0xa5, 0x3f, 0x98, 0x1c, 0x4d, 0x0d] := by decide +kernel
/-- Section 8, P3: the 1-byte digest of the empty message, and the zero tail. -/
theorem test_sum_one_byte_of_empty :
    (stateOf (exec .sum (configured 1))).digest.map (fun d => d.toList) = some (0x2e :: zeros 63) := by decide +kernel
theorem test_reset_restores_and_invalidates :
    let t := stateOf (exec .reset { configured 64 [0xFF] with dvalid := true })
    t.hasher = some (freshHasher 64) ∧ t.dvalid = false ∧ t.result = 0 := by decide +kernel
theorem test_size : (stateOf (exec .size (configured 32))).result = 32 := by decide +kernel
theorem test_size_unconfigured :
    exec .size State.reset = .next { State.reset with err := .notConfigured, result := 0 } := rfl

/-- Section 6.1: verdicts at power-on. -/
theorem test_verdicts_at_power_on :
    [0x00000000, 0x01000041, 0x01000100, 0x02000008, 0x02000009, 0x03000001, 0xFF000000].map (verdict · State.reset) =
      [(3, 0), (1, 0), (3, 0), (2, 0), (4, 0), (3, 0), (3, 0)] := by decide +kernel
/-- Section 6.1: verdicts after `INIT 32`. -/
theorem test_verdicts_configured :
    [0x00000000, 0x010000FF, 0x02000008, 0x020000FF, 0x02800000, 0x04000000, 0x05000000].map
        (verdict · (configured 32)) =
      [(0x103, 0), (0x101, 0), (0x100, 8), (0x104, 0), (0x103, 0), (0x100, 0), (0x100, 32)] := by decide +kernel

/-- 70_reset_and_hazards.md R236: DIGEST is kept but not read while DVALID = 0. -/
theorem test_digest_is_unreadable_after_reset :
    let t := stateOf (exec .reset { configured 64 with dvalid := true, digest := some (Vector.replicate 64 7) })
    t.digest = some (Vector.replicate 64 7) ∧ t.readDigest = none := by decide +kernel

/-! ## Witnesses: what meets the hypotheses of the statements -/

/-- A configured core whose DIGEST is valid. -/
def afterSum : State :=
  { configured 64 with dvalid := true, digest := some (Vector.replicate 64 0), err := .badLength, result := 5 }

theorem witness_DecodeOfEncodeIsTheCommand :
    (Instr.init 255).wf = true ∧ (Instr.write 255 0).wf = true ∧ (Instr.write 0 0).wf = true ∧ Instr.sum.wf = true ∧
      Instr.reset.wf = true ∧ Instr.size.wf = true := by decide
theorem witness_EncodeOfDecodedWordIsTheWord :
    decode ⟨0x020000FF, 9⟩ = .command (.write 255 9) ∧ decode ⟨0x05000000, 9⟩ = .command .size := by decide
theorem witness_IllegalWordsRaiseIllegalCommand :
    IllegalWord ⟨0x00FFFFFF, 0⟩ ∧ IllegalWord ⟨0x06000000, 0⟩ ∧ IllegalWord ⟨0x01000100, 0⟩ ∧
      IllegalWord ⟨0x05000001, 0⟩ ∧ ¬ IllegalWord ⟨0x020000FF, 0⟩ ∧ ¬ IllegalWord ⟨0x05000000, 0⟩ := by decide
theorem witness_StepRunsTheNextCommand :
    (powerOn [encode .size]).stream = encode .size :: [] ∧ decode (encode .size) = .command .size ∧
      (powerOn [⟨0, 0⟩]).stream = ⟨0, 0⟩ :: [] ∧ decode ⟨0, 0⟩ = .illegal .undefinedOpcode ∧
      State.reset.stream = [] := by decide
theorem witness_PlacedWordRunsNext : decodeTableWord 32 0x01000040 = some (.init 64) := by decide
/-- The legal and the illegal words of every opcode (the clauses `WordsOf`). -/
theorem witness_WordsOf :
    (¬ IllegalWord ⟨0x010000FF, 5⟩ ∧ opOf ⟨0x010000FF, 5⟩ = 1) ∧ (¬ IllegalWord ⟨0x02000000, 5⟩ ∧ opOf ⟨0x02000000, 5⟩ = 2) ∧
      (¬ IllegalWord ⟨0x03000000, 5⟩ ∧ opOf ⟨0x03000000, 5⟩ = 3) ∧
      (¬ IllegalWord ⟨0x04000000, 5⟩ ∧ opOf ⟨0x04000000, 5⟩ = 4) ∧
      (¬ IllegalWord ⟨0x05000000, 5⟩ ∧ opOf ⟨0x05000000, 5⟩ = 5) ∧
      IllegalWord ⟨0x03000001, 5⟩ ∧ IllegalWord ⟨0x05000100, 5⟩ := by decide
theorem witness_InitCreatesAnInstance :
    (1 ≤ 1 ∧ 1 ≤ 64) ∧ (1 ≤ 64 ∧ 64 ≤ 64) ∧ (0 < 1 ∨ 64 < 0) ∧ (65 < 1 ∨ 64 < 65) := by decide
theorem witness_WriteAbsorbsItsBytes :
    0 ≤ 8 ∧ 8 ≤ 8 ∧ 8 < 9 ∧ (configured 64).hasher = some (freshHasher 64) ∧ State.reset.hasher = none := by
  decide +kernel
theorem witness_configured_and_unconfigured :
    (configured 1).hasher = some (freshHasher 1) ∧ (configured 64 (zeros 128)).hasher.isSome = true ∧
      State.reset.hasher = none := by decide +kernel
theorem witness_FailedCommandChangesOnlyErrAndResult :
    check (.illegal .reservedField) State.reset = .illegalCommand ∧
      check (decode ⟨0x02000009, 0⟩) State.reset = .badLength ∧
      check (decode ⟨0x02000008, 0⟩) State.reset = .notConfigured ∧
      check (decode ⟨0x01000041, 0⟩) State.reset = .invalidParameter := by decide
theorem witness_PassedChecksEndWithOk :
    check (decode ⟨0x01000001, 0⟩) State.reset = .ok ∧ check (decode ⟨0x01000040, 0⟩) State.reset = .ok ∧
      check (decode ⟨0x02000008, 0⟩) (configured 64) = .ok ∧ check (decode ⟨0x05000000, 0⟩) (configured 64) = .ok := by
  decide +kernel
/-- A successful and a failed command, of an opcode that writes and of one that does not: the clauses of the statements
on which command writes which state. -/
theorem witness_execute_answers :
    execute ⟨0x05000000, 0⟩ (configured 64) = .next ((configured 64).complete 64) ∧
      execute ⟨0x05000000, 0⟩ State.reset = .next (State.reset.raise .notConfigured) ∧
      execute ⟨0x01000001, 0⟩ State.reset =
        .next ({ State.reset with hasher := some (freshHasher 1), dvalid := false }.complete 1) ∧
      execute ⟨0x04000000, 0⟩ afterSum = .next ({ afterSum with dvalid := false }.complete 0) := by
  exact ⟨rfl, rfl, rfl, rfl⟩
/-- The opcode and error conditions of those statements, each met by one of the four commands above. -/
theorem witness_written_state_clauses :
    opOf ⟨0x05000000, 0⟩ ≠ 3 ∧ opOf ⟨0x05000000, 0⟩ ≠ 1 ∧ opOf ⟨0x05000000, 0⟩ ≠ 2 ∧ opOf ⟨0x05000000, 0⟩ ≠ 4 ∧
      (State.reset.raise .notConfigured).err ≠ .ok ∧ opOf ⟨0x01000001, 0⟩ = 1 ∧ (configured 64).cfg = true := by
  decide +kernel
theorem witness_WriteIgnoresTheUpperLanes :
    (∀ i, i < 8 * 1 → (0x1122#64).getLsbD i = (0x3322#64).getLsbD i) ∧
      (∀ i, i < 8 * 0 → (0#64).getLsbD i = (1#64).getLsbD i) := by decide
theorem witness_InitSumResetSizeAreIdempotent :
    (∀ n data, Instr.size ≠ .write n data) ∧ exec .size (configured 64) = .next ((configured 64).complete 64) :=
  ⟨fun _ _ h => (nomatch h), rfl⟩
theorem witness_EveryStepKeepsTheInvariants :
    State.reset.Inv ∧ afterSum.Inv ∧ (configured 1 (zeros 128)).hasher.map (fun x => x.buf.length) = some 128 ∧
      step State.reset = .next State.reset := by
  refine ⟨by decide, by decide +kernel, by decide +kernel, rfl⟩
theorem witness_RotrMovesBits : 16 ∈ [16, 24, 32, 63] ∧ 63 ∈ [16, 24, 32, 63] ∧ 0 < 64 ∧ 63 < 64 := by decide
theorem witness_ColumnAndDiagonalStepsCommute :
    List.Perm [3, 2, 1, 0] [0, 1, 2, (3 : Fin 8)] ∧ List.Perm [5, 4, 7, 6] [4, 5, 6, (7 : Fin 8)] := by decide
theorem witness_SeedEncodesTheOutputLength : (1 ≤ 1 ∧ 1 ≤ 64) ∧ (1 ≤ 64 ∧ 64 ≤ 64) ∧ seed 64 = seed 64 := by
  exact ⟨by decide, by decide, rfl⟩
theorem witness_MessageWordsAreLittleEndian : (zeros 128).length = 128 := by decide +kernel
theorem witness_CounterAdditionIsModulo2Pow128 : 0 ≤ 128 ∧ 128 ≤ 128 := by decide
theorem witness_AbsorbDefersTheFullBlock :
    { freshHasher 64 with buf := zeros 128 }.buf.length = 128 ∧
      { freshHasher 64 with buf := zeros 127 }.buf.length ≠ 128 ∧ (freshHasher 64).buf.length ≤ 128 := by decide +kernel
theorem witness_WriteCompressesAtMostOneBlock :
    (configured 64 (zeros 124)).hasher = some { freshHasher 64 with buf := zeros 124 } ∧ (zeros 124).length ≤ 128 ∧
      ((zeros 124) ++ dataLanes 4 0).length ≤ 128 ∧ ¬ ((zeros 124) ++ dataLanes 5 0).length ≤ 128 := by
  refine ⟨rfl, by decide +kernel, by decide +kernel, by decide +kernel⟩
theorem witness_PendingBytesAreTheLastBlock : [0#8] ≠ [] ∧ zeros 129 ≠ [] := by decide
theorem witness_BoundaryLengths :
    [0, 1, 127, 128, 129, 256].map (fun n => (zeros n).length) = [0, 1, 127, 128, 129, 256] := by decide +kernel
theorem witness_Represents :
    Represents none State.reset ∧ Represents (some ⟨64, []⟩) (configured 64) ∧
      Represents (some ⟨64, [0x61]⟩) (configured 64 [0x61]) := by decide +kernel
theorem witness_OneShotGivesTheMessageDigest :
    (1 ≤ (none : Option Nat).getD 64 ∧ (none : Option Nat).getD 64 ≤ 64) ∧
      (1 ≤ (some 1).getD 64 ∧ (some 1).getD 64 ≤ 64) := by decide
theorem witness_SplitOfTheInputDoesNotMatter :
    (∀ w ∈ [(2, 0x6261#64), (0, 5)], w.1 ≤ 8) ∧ (∀ w ∈ [(1, 0x61#64), (1, 0x62)], w.1 ≤ 8) ∧
      writtenBytes [(2, 0x6261), (0, 5)] = writtenBytes [(1, 0x61), (1, 0x62)] := by decide
theorem witness_ResetEqualsFreshInit :
    (configured 64).hasher = some (freshHasher 64) ∧ 1 ≤ (freshHasher 64).outlen ∧ (freshHasher 64).outlen ≤ 64 := by
  decide +kernel
theorem witness_InvalidDigestIsNeverObserved : { afterSum with dvalid := false }.dvalid = false := by decide
theorem witness_HashStateIsSeenOnlyThroughDigest :
    (configured 64 [0x61]).dvalid = (configured 64).dvalid ∧
      (configured 64 [0x61]).hasher.map Hasher.outlen = (configured 64).hasher.map Hasher.outlen ∧
      configured 64 [0x61] ≠ configured 64 := by decide +kernel

end Sys2Proof.Tests
end

/-! # The state of the core (10_state.md): what one command does to it, and what a host sees of a run -/

namespace Sys2Proof

@[simp] theorem opcode_init (n : Nat) : (Instr.init n).opcode = 1 := rfl
@[simp] theorem opcode_write (n : Nat) (data : BitVec 64) : (Instr.write n data).opcode = 2 := rfl
@[simp] theorem opcode_sum : Instr.sum.opcode = 3 := rfl
@[simp] theorem opcode_reset : Instr.reset.opcode = 4 := rfl
@[simp] theorem opcode_size : Instr.size.opcode = 5 := rfl

@[simp] theorem argField_init (n : Nat) : (Instr.init n).argField = n := rfl
@[simp] theorem argField_write (n : Nat) (data : BitVec 64) : (Instr.write n data).argField = n := rfl
@[simp] theorem argField_sum : Instr.sum.argField = 0 := rfl
@[simp] theorem argField_reset : Instr.reset.argField = 0 := rfl
@[simp] theorem argField_size : Instr.size.argField = 0 := rfl

/-- A command without operand is read only from ARG = 0 (30_encoding.md R77). -/
theorem decodeNoArg_eq_command {arg : Nat} {i j : Instr} (h : decodeNoArg arg i = .command j) :
    arg = 0 ∧ i = j := by
  unfold decodeNoArg at h
  split at h <;> cases h
  exact ⟨‹_›, rfl⟩

/-- The opcode map reads a command only from its own OP and ARG (30_encoding.md R75). -/
theorem decodeOp_eq_command {op arg : Nat} {data : BitVec 64} {i : Instr}
    (h : decodeOp op arg data = .command i) : op = i.opcode ∧ arg = i.argField := by
  unfold decodeOp at h
  split at h
  · cases h; exact ⟨rfl, rfl⟩
  · cases h; exact ⟨rfl, rfl⟩
  · obtain ⟨harg, rfl⟩ := decodeNoArg_eq_command h; exact ⟨rfl, harg⟩
  · obtain ⟨harg, rfl⟩ := decodeNoArg_eq_command h; exact ⟨rfl, harg⟩
  · obtain ⟨harg, rfl⟩ := decodeNoArg_eq_command h; exact ⟨rfl, harg⟩
  · cases h

/-- DATA reaches the opcode map only through WRITE (10_state.md R22). -/
theorem decodeOp_data_irrelevant {op : Nat} (h : op ≠ 2) (arg : Nat) (d d' : BitVec 64) :
    decodeOp op arg d = decodeOp op arg d' := by
  unfold decodeOp
  split
  · rfl
  · exact absurd rfl h
  · rfl
  · rfl
  · rfl
  · rfl

end Sys2Proof

namespace Sys2Proof.Machine

/-- A word decodes to a command only if OP and ARG are the command's (30_encoding.md R75, R77). -/
theorem fields_of_decode {c : Command} {i : Instr} (h : decode c = .command i) :
    opOf c = i.opcode ∧ argOf c = i.argField := by
  unfold decode at h
  split at h
  · cases h
  · rw [cmdOp_eq, cmdArg_eq] at h
    exact decodeOp_eq_command h

theorem opOf_of_decode {c : Command} {i : Instr} (h : decode c = .command i) : opOf c = i.opcode :=
  (fields_of_decode h).1

theorem argOf_of_decode {c : Command} {i : Instr} (h : decode c = .command i) : argOf c = i.argField :=
  (fields_of_decode h).2

/-! ## Everything a command can do -/

@[simp] theorem exec_init_eq (n : Nat) (s : State) : exec (.init n) s = execInit n s := rfl
@[simp] theorem exec_write_eq (n : Nat) (data : BitVec 64) (s : State) :
    exec (.write n data) s = execWrite n data s := rfl
@[simp] theorem exec_sum_eq (s : State) : exec .sum s = execSum s := rfl
@[simp] theorem exec_reset_eq (s : State) : exec .reset s = execReset s := rfl
@[simp] theorem exec_size_eq (s : State) : exec .size s = execSize s := rfl

theorem execute_of_decode {c : Command} {i : Instr} (h : decode c = .command i) (s : State) :
    execute c s = exec i s := by
  simp [execute, h]

/-- The effects of a command word: it fails its first failing check and only records the error (60_exceptions.md R207),
or it is one of the five commands and passes (42_commands.md R171 to R175). -/
inductive CommandEffect (c : Command) (s : State) : State → Prop
  | failed (hfail : check (decode c) s ≠ .ok) : CommandEffect c s (s.raise (check (decode c) s))
  | init {n : Nat} (hdec : decode c = .command (.init n)) (hlo : 1 ≤ n) (hhi : n ≤ 64) :
      CommandEffect c s ({ s with hasher := some (freshHasher n), dvalid := false }.complete n)
  | write {n : Nat} {data : BitVec 64} {x : Hasher} (hdec : decode c = .command (.write n data)) (hn : n ≤ 8)
      (hx : s.hasher = some x) :
      CommandEffect c s ({ s with hasher := some (absorbAll x (laneBytes n data)) }.complete n)
  | sum {x : Hasher} (hdec : decode c = .command .sum) (hx : s.hasher = some x) :
      CommandEffect c s ({ s with digest := some (digestOf x), dvalid := true }.complete x.outlen)
  | reset {x : Hasher} (hdec : decode c = .command .reset) (hx : s.hasher = some x) :
      CommandEffect c s ({ s with hasher := some (freshHasher x.outlen), dvalid := false }.complete 0)
  | size {x : Hasher} (hdec : decode c = .command .size) (hx : s.hasher = some x) :
      CommandEffect c s (s.complete x.outlen)

/-- The effect of a failed check, with the error named. -/
theorem CommandEffect.failed_of_eq {c : Command} {s : State} {e : ErrCode} (h : check (decode c) s = e)
    (he : e ≠ .ok) : CommandEffect c s (s.raise e) := by
  subst h
  exact .failed he

theorem commandEffect_of_execute {c : Command} {s t : State} (h : execute c s = .next t) :
    CommandEffect c s t := by
  rcases execute_cases h with ⟨why, hdec, rfl⟩ | ⟨i, hdec, hi⟩
  · exact .failed_of_eq (by simp [check, hdec]) (by decide)
  cases i with
  | init n =>
    rcases execInit_cases hi with ⟨hn, rfl⟩ | ⟨hlo, hhi, rfl⟩
    · exact .failed_of_eq (by simp only [check, hdec, if_pos hn]) (by decide)
    · exact .init hdec hlo hhi
  | write n data =>
    rcases execWrite_cases hi with ⟨hn, rfl⟩ | ⟨hn, hx, rfl⟩ | ⟨hn, x, hx, rfl⟩
    · exact .failed_of_eq (by simp [check, hdec, hn]) (by decide)
    · exact .failed_of_eq (by simp [check, hdec, State.cfg, hx, hn]) (by decide)
    · exact .write hdec hn hx
  | sum =>
    rcases execSum_cases hi with ⟨hx, rfl⟩ | ⟨x, hx, rfl⟩
    · exact .failed_of_eq (by simp [check, hdec, State.cfg, hx]) (by decide)
    · exact .sum hdec hx
  | reset =>
    rcases execReset_cases hi with ⟨hx, rfl⟩ | ⟨x, hx, rfl⟩
    · exact .failed_of_eq (by simp [check, hdec, State.cfg, hx]) (by decide)
    · exact .reset hdec hx
  | size =>
    rcases execSize_cases hi with ⟨hx, rfl⟩ | ⟨x, hx, rfl⟩
    · exact .failed_of_eq (by simp [check, hdec, State.cfg, hx]) (by decide)
    · exact .size hdec hx

theorem whenConfigured_completes (s : State) (f : Hasher → State) : ∃ t, whenConfigured s f = .next t := by
  cases hx : s.hasher with
  | none => exact ⟨_, whenConfigured_none hx⟩
  | some x => exact ⟨_, whenConfigured_some hx⟩

theorem exec_completes (i : Instr) (s : State) : ∃ t, exec i s = .next t := by
  cases i with
  | init n => rw [exec_init_eq, execInit]; split <;> exact ⟨_, rfl⟩
  | write n data =>
    rw [exec_write_eq, execWrite]
    split
    · exact ⟨_, rfl⟩
    · exact whenConfigured_completes _ _
  | sum => exact whenConfigured_completes _ _
  | reset => exact whenConfigured_completes _ _
  | size => exact whenConfigured_completes _ _

/-- Every command completes with a next state (70_reset_and_hazards.md R238). -/
theorem execute_completes (c : Command) (s : State) : ∃ t, execute c s = .next t := by
  unfold execute
  split
  · exact exec_completes _ s
  · exact ⟨_, rfl⟩

/-- ERR after a command is its first failing check (60_exceptions.md R206). -/
theorem CommandEffect.err_eq_check {c : Command} {s t : State} (h : CommandEffect c s t) :
    t.err = check (decode c) s := by
  cases h with
  | failed hfail => rfl
  | init hdec hlo hhi => simp [check, hdec]; omega
  | write hdec hn hx => simp [check, hdec, State.cfg, hx]; omega
  | sum hdec hx => simp [check, hdec, State.cfg, hx]
  | reset hdec hx => simp [check, hdec, State.cfg, hx]
  | size hdec hx => simp [check, hdec, State.cfg, hx]

/-- A command with a failing check only records it (60_exceptions.md R207). -/
theorem CommandEffect.eq_raise {c : Command} {s t : State} (h : CommandEffect c s t)
    (hfail : check (decode c) s ≠ .ok) : t = s.raise (check (decode c) s) := by
  have herr := h.err_eq_check
  cases h with
  | failed => rfl
  | _ => exact absurd herr.symm hfail

/-- The effects are all a command can do, and each of them is what it does. -/
theorem execute_eq_next_iff {c : Command} {s t : State} : execute c s = .next t ↔ CommandEffect c s t := by
  refine ⟨commandEffect_of_execute, fun h => ?_⟩
  cases h with
  | failed hfail =>
    obtain ⟨u, hu⟩ := execute_completes c s
    rw [hu, (commandEffect_of_execute hu).eq_raise hfail]
  | init hdec hlo hhi => rw [execute_of_decode hdec, exec_init_eq, execInit, if_neg (by omega)]
  | write hdec hn hx =>
    rw [execute_of_decode hdec, exec_write_eq, execWrite, if_neg (by omega), whenConfigured_some hx]
  | sum hdec hx => rw [execute_of_decode hdec, exec_sum_eq, execSum, whenConfigured_some hx]
  | reset hdec hx => rw [execute_of_decode hdec, exec_reset_eq, execReset, whenConfigured_some hx]
  | size hdec hx => rw [execute_of_decode hdec, exec_size_eq, execSize, whenConfigured_some hx]

/-! ## The invariants (10_state.md R39) -/

/-- Two fields side by side, as a number. -/
theorem toNat_append_eq_mul_add {m n : Nat} (x : BitVec m) (y : BitVec n) :
    (x ++ y).toNat = x.toNat * 2 ^ n + y.toNat := by
  rw [BitVec.toNat_append, ← Nat.shiftLeft_add_eq_or_of_lt y.isLt, Nat.shiftLeft_eq]

theorem Counter.value_toNat (t : Counter) : t.value.toNat = t.t1.toNat * 2 ^ 64 + t.t0.toNat :=
  toNat_append_eq_mul_add t.t1 t.t0

/-- A whole block leaves the counter's place within its block: the low word decides it, and its carry does not. -/
theorem Counter.add_block_mod (t : Counter) : (t.add 128).value.toNat % 128 = t.value.toNat % 128 := by
  have hlow : (t.add 128).t0.toNat = (t.t0.toNat + 128) % 2 ^ 64 := BitVec.toNat_add ..
  rw [Counter.value_toNat, Counter.value_toNat, hlow]
  omega

theorem freshHasher_inv {n : Nat} (hlo : 1 ≤ n) (hhi : n ≤ 64) : (freshHasher n).Inv :=
  ⟨⟨hlo, hhi⟩, by simp, by simp [Counter.value_toNat], fun _ => ⟨rfl, rfl⟩⟩

theorem absorb_inv {x : Hasher} (b : Byte) (hx : x.Inv) : (absorb x b).Inv := by
  obtain ⟨houtlen, hbuf, hcount, -⟩ := hx
  have hbounds := absorb_buf_bounds b hbuf
  refine ⟨by rwa [absorb_outlen], hbounds.2, ?_, fun hempty => by simp [hempty] at hbounds⟩
  by_cases hfull : x.buf.length = 128
  · rw [absorb_full b hfull, Counter.add_block_mod, hcount]
  · rw [absorb_room b hfull, hcount]

theorem absorbAll_inv {x : Hasher} (bs : List Byte) (hx : x.Inv) : (absorbAll x bs).Inv := by
  induction bs generalizing x with
  | nil => exact hx
  | cons b bs ih => exact ih (absorb_inv b hx)

/-- What SUM writes is zero from OUTLEN on (42_commands.md R173). -/
theorem zeroTail_digestOf (x : Hasher) : zeroTail (digestOf x) x.outlen = true := by
  apply decide_eq_true
  intro i hi
  simp [digestOf, Nat.not_lt.mpr hi]

/-- The part of the invariant that speaks of the hash state, where there is one. -/
theorem State.Inv.of_hasher {s : State} {x : Hasher} (hs : s.Inv) (hx : s.hasher = some x) :
    x.Inv ∧ (s.dvalid = true → s.digest.any (zeroTail · x.outlen) = true) :=
  hs.1 x hx

/-- A configured state meets the invariant if its hash state does and a valid DIGEST has its zero tail. -/
theorem State.inv_of_some {s : State} {x : Hasher} (hs : s.hasher = some x) (hx : x.Inv)
    (htail : s.dvalid = true → s.digest.any (zeroTail · x.outlen) = true) : s.Inv :=
  ⟨by simpa [hs] using ⟨hx, htail⟩, fun _ => by simp [State.cfg, hs]⟩

theorem CommandEffect.keeps_inv {c : Command} {s t : State} (h : CommandEffect c s t) (hs : s.Inv) : t.Inv := by
  cases h with
  | failed => exact hs
  | init _ hlo hhi => exact State.inv_of_some rfl (freshHasher_inv hlo hhi) (by simp)
  | write _ _ hx =>
    obtain ⟨hinv, htail⟩ := hs.of_hasher hx
    exact State.inv_of_some rfl (absorbAll_inv _ hinv) (by simpa using htail)
  | @sum x _ hx =>
    exact State.inv_of_some hx (hs.of_hasher hx).1 (fun _ => zeroTail_digestOf x)
  | reset _ hx =>
    obtain ⟨⟨⟨hlo, hhi⟩, -⟩, -⟩ := hs.of_hasher hx
    exact State.inv_of_some rfl (freshHasher_inv hlo hhi) (by simp)
  | size => exact hs

/-- Settles O29: taking a command leaves what the invariant reads, and each effect of a command keeps the invariant. -/
theorem everyStepKeepsTheInvariants : Obligations.EveryStepKeepsTheInvariants := by
  intro s t hs hstep
  unfold step at hstep
  split at hstep
  case h_1 => cases hstep; exact hs
  case h_2 c s' hnext =>
    obtain ⟨cs, -, rfl⟩ := nextCommand_cases hnext
    exact (commandEffect_of_execute hstep).keeps_inv hs

/-- Settles O28: at power-on there is no hash state and DVALID = 0. -/
theorem invariantsHoldAtPowerOn : Obligations.InvariantsHoldAtPowerOn :=
  ⟨fun _ hx => (nomatch hx), fun hvalid => (nomatch hvalid)⟩

/-! ## Which command writes which state -/

/-- Settles O18, effect by effect. -/
theorem resultIsTheReturnValue : Obligations.ResultIsTheReturnValue := by
  refine ⟨rfl, fun c s t h => ?_⟩
  cases commandEffect_of_execute h with
  | failed hfail => simp [hfail]
  | init hdec => simp [opOf_of_decode hdec, argOf_of_decode hdec]
  | write hdec => simp [opOf_of_decode hdec, argOf_of_decode hdec]
  | sum hdec hx => simp [opOf_of_decode hdec, hx]
  | reset hdec => simp [opOf_of_decode hdec]
  | size hdec hx => simp [opOf_of_decode hdec, hx]

/-- Settles O19, effect by effect. -/
theorem dvalidFollowsSumInitReset : Obligations.DvalidFollowsSumInitReset := by
  refine ⟨rfl, fun c s t h => ?_⟩
  cases commandEffect_of_execute h with
  | failed hfail => simp [hfail]
  | init hdec => simp [opOf_of_decode hdec]
  | write hdec => simp [opOf_of_decode hdec]
  | sum hdec => simp [opOf_of_decode hdec]
  | reset hdec => simp [opOf_of_decode hdec]
  | size hdec => simp [opOf_of_decode hdec]

/-- Settles O20: SUM is the only effect that names DIGEST, and it has opcode 3 and ends with OK. -/
theorem digestIsWrittenOnlyBySum : Obligations.DigestIsWrittenOnlyBySum := by
  intro c s t h hother
  cases commandEffect_of_execute h with
  | sum hdec => simp [opOf_of_decode hdec] at hother
  | _ => rfl

/-- Settles O21: the effects but INIT keep OUTLEN, and with it CFG. -/
theorem outlenAndCfgAreWrittenOnlyByInit : Obligations.OutlenAndCfgAreWrittenOnlyByInit := by
  intro c s t h
  cases commandEffect_of_execute h with
  | failed hfail => simp [hfail, State.cfg]
  | init hdec => simp [opOf_of_decode hdec, argOf_of_decode hdec, State.cfg]
  | write hdec _ hx => simp [opOf_of_decode hdec, State.cfg, hx]
  | sum hdec hx => simp [opOf_of_decode hdec, State.cfg]
  | reset hdec hx => simp [opOf_of_decode hdec, State.cfg, hx]
  | size hdec hx => simp [opOf_of_decode hdec, State.cfg]

/-- Settles O22: the effects of INIT, WRITE and RESET are the only ones that name the hash state. -/
theorem hashStateIsWrittenOnlyByInitWriteReset : Obligations.HashStateIsWrittenOnlyByInitWriteReset := by
  intro c s t h hother
  cases commandEffect_of_execute h with
  | init hdec => simp [opOf_of_decode hdec] at hother
  | write hdec => simp [opOf_of_decode hdec] at hother
  | reset hdec => simp [opOf_of_decode hdec] at hother
  | _ => rfl

/-- Settles O23: two words with the same CMD, not a WRITE, decode alike. -/
theorem dataIsReadOnlyByWrite : Obligations.DataIsReadOnlyByWrite := by
  intro cmd d d' s hop
  have hdec : decode ⟨cmd, d⟩ = decode ⟨cmd, d'⟩ := by
    have hop' : cmdOp cmd ≠ 2 := by rwa [cmdOp_eq]
    simp only [decode, decodeOp_data_irrelevant hop' _ d d']
  simp only [execute, hdec]

/-! ## STATUS and DIGEST as numbers -/

/-- STATUS is the sum of its fields, each at its place (10_state.md R23). -/
theorem status_toNat (s : State) :
    s.status.toNat = s.err.code.toNat + s.cfg.toNat * 2 ^ 8 + s.dvalid.toNat * 2 ^ 9 := by
  have herr := s.err.code.isLt
  have hcfg := s.cfg.toNat_lt
  have hdvalid := s.dvalid.toNat_lt
  simp only [State.status, BitVec.toNat_setWidth, toNat_append_eq_mul_add, BitVec.toNat_ofBool, BitVec.toNat_ofNat]
  omega

/-- A field of STATUS, read off STATUS as a number. -/
theorem status_field (s : State) (start len : Nat) : (s.status.extractLsb' start len).toNat =
    (s.err.code.toNat + s.cfg.toNat * 2 ^ 8 + s.dvalid.toNat * 2 ^ 9) / 2 ^ start % 2 ^ len := by
  rw [BitVec.extractLsb'_toNat, status_toNat, Nat.shiftRight_eq_div_pow]

/-- Settles O26: the fields are read off STATUS as a number. -/
theorem statusWordLayout : Obligations.StatusWordLayout := by
  refine ⟨rfl, fun s => ?_⟩
  have herr := s.err.code.isLt
  have hcfg := s.cfg.toNat_lt
  have hdvalid := s.dvalid.toNat_lt
  refine ⟨status_toNat s, BitVec.eq_of_toNat_eq ?_, BitVec.eq_of_toNat_eq ?_, BitVec.eq_of_toNat_eq ?_, ?_⟩
  · rw [status_field]; omega
  · rw [status_field]; change _ = 0; omega
  · rw [status_field]; change _ = 0; omega
  · cases s.err <;> rfl

/-- Settles O27: `State.reset` is written out as R38 lists it. -/
theorem powerOnValues : Obligations.PowerOnValues :=
  ⟨rfl, rfl, rfl, rfl, rfl, rfl, rfl, rfl⟩

/-- Bit `8i + j` of the number that a byte list makes, its first byte lowest, is bit `j` of its byte `i`. -/
theorem foldr_bytes_getLsbD {w : Nat} (bs : List Byte) (i j : Nat) (hj : j < 8) (hw : 8 * i + j < w) :
    (bs.foldr (fun (b : Byte) (acc : BitVec w) => b.setWidth w ||| (acc <<< 8)) 0).getLsbD (8 * i + j) =
      (bs.getD i 0).getLsbD j := by
  induction bs generalizing i with
  | nil => simp
  | cons b bs ih =>
    rw [List.foldr_cons, BitVec.getLsbD_or, BitVec.getLsbD_setWidth, BitVec.getLsbD_shiftLeft]
    cases i with
    | zero => simp [hj]; omega
    | succ i =>
      have hshift : 8 * (i + 1) + j - 8 = 8 * i + j := by omega
      rw [hshift, ih i (by omega), BitVec.getLsbD_of_ge b _ (by omega)]
      simp [hw]; omega

/-- Settles O38, bit by bit. -/
theorem digestBytesAreLanesOfTheRegister : Obligations.DigestBytesAreLanesOfTheRegister := by
  intro d i
  apply BitVec.eq_of_getLsbD_eq
  intro j hj
  rw [BitVec.getLsbD_extractLsb', digestNumber, foldr_bytes_getLsbD _ _ _ hj (by omega)]
  simp [hj]

/-! ## What a host sees of two runs (70_reset_and_hazards.md R239) -/

theorem observations_cons {c : Command} {s t : State} (h : execute c s = .next t) (cs : List Command) :
    observations (c :: cs) s = observe t :: observations cs t := by
  simp [observations, h]

/-- Two runs look the same through `f` if some relation of their states is kept by every command and makes the two
states after it look the same. -/
theorem observations_map_eq_of_related {α : Type} {R : State → State → Prop} {f : Observation → α}
    (hstep : ∀ c s s', R s s' → ∃ t t', execute c s = .next t ∧ execute c s' = .next t' ∧ R t t' ∧
      f (observe t) = f (observe t'))
    (cs : List Command) {s s' : State} (hR : R s s') :
    (observations cs s).map f = (observations cs s').map f := by
  induction cs generalizing s s' with
  | nil => rfl
  | cons c cs ih =>
    obtain ⟨t, t', ht, ht', hRt, hobs⟩ := hstep c s s' hR
    rw [observations_cons ht, observations_cons ht', List.map_cons, List.map_cons, hobs, ih hRt]

/-- Two states that differ in DIGEST at most, and only while it is invalid. -/
def DifferInInvalidDigest (s s' : State) : Prop :=
  ∃ d, s' = { s with digest := d } ∧ (s.dvalid = true → d = s.digest)

theorem readDigest_of_invalid {s : State} (h : s.dvalid = false) : s.readDigest = none := by
  simp [State.readDigest, h]

theorem DifferInInvalidDigest.observe_eq {s s' : State} (h : DifferInInvalidDigest s s') :
    observe s = observe s' := by
  obtain ⟨d, rfl, hd⟩ := h
  cases hvalid : s.dvalid with
  | false => simp [observe, State.readDigest, hvalid, State.status, State.cfg]
  | true => rw [hd hvalid, ← hvalid]

/-- The effect of a command is the same from two such states: what it leaves in DIGEST is its own digest or what was
there, and it makes DIGEST valid only in the first case. -/
theorem CommandEffect.of_differInInvalidDigest {c : Command} {s s' t : State} (h : CommandEffect c s t)
    (hs : DifferInInvalidDigest s s') : ∃ t', CommandEffect c s' t' ∧ DifferInInvalidDigest t t' := by
  obtain ⟨d, rfl, hd⟩ := hs
  cases h with
  | failed hfail => exact ⟨_, .failed hfail, d, rfl, hd⟩
  | init hdec hlo hhi => exact ⟨_, .init hdec hlo hhi, d, rfl, by simp⟩
  | write hdec hn hx => exact ⟨_, .write hdec hn hx, d, rfl, hd⟩
  | sum hdec hx => exact ⟨_, .sum hdec hx, _, rfl, fun _ => rfl⟩
  | reset hdec hx => exact ⟨_, .reset hdec hx, d, rfl, by simp⟩
  | size hdec hx => exact ⟨_, .size hdec hx, d, rfl, hd⟩

/-- Settles O53: the states of the two runs differ in an invalid DIGEST at most, which is never read. -/
theorem invalidDigestIsNeverObserved : Obligations.InvalidDigestIsNeverObserved := by
  refine ⟨fun s => readDigest_of_invalid, fun cs s d hinvalid => ?_⟩
  have hstart : DifferInInvalidDigest s { s with digest := d } := ⟨d, rfl, by simp [hinvalid]⟩
  have hsame : (observations cs s).map id = (observations cs { s with digest := d }).map id := by
    refine observations_map_eq_of_related (fun c s s' hs => ?_) cs hstart
    obtain ⟨t, ht⟩ := execute_completes c s
    obtain ⟨t', ht', hdiffer⟩ := (commandEffect_of_execute ht).of_differInInvalidDigest hs
    exact ⟨t, t', ht, execute_eq_next_iff.mpr ht', hdiffer, hdiffer.observe_eq⟩
  simpa using hsame.symm

/-- Two states with the same DVALID and the same OUTLEN, or none in both: what STATUS and RESULT depend on. -/
def SameDvalidAndOutlen (s s' : State) : Prop :=
  s.dvalid = s'.dvalid ∧ s.hasher.map Hasher.outlen = s'.hasher.map Hasher.outlen

theorem SameDvalidAndOutlen.cfg_eq {s s' : State} (h : SameDvalidAndOutlen s s') : s.cfg = s'.cfg := by
  simpa [State.cfg] using congrArg Option.isSome h.2

/-- The checks read nothing of the state but CFG (60_exceptions.md R206). -/
theorem check_congr {s s' : State} (h : s.cfg = s'.cfg) (d : Decoded) : check d s = check d s' := by
  simp only [check, h]

/-- From two such states a command ends with the same error and the same RESULT, in two such states. -/
theorem SameDvalidAndOutlen.after_execute {c : Command} {s s' t t' : State} (hs : SameDvalidAndOutlen s s')
    (h : execute c s = .next t) (h' : execute c s' = .next t') :
    SameDvalidAndOutlen t t' ∧ t.err = t'.err ∧ t.result = t'.result := by
  have herr : t.err = t'.err := by
    rw [(commandEffect_of_execute h).err_eq_check, (commandEffect_of_execute h').err_eq_check,
      check_congr hs.cfg_eq]
  have hdvalid : t.dvalid = t'.dvalid := by
    rw [dvalidFollowsSumInitReset.2 c s t h, dvalidFollowsSumInitReset.2 c s' t' h', herr, hs.1]
  have hresult : t.result = t'.result := by
    rw [resultIsTheReturnValue.2 c s t h, resultIsTheReturnValue.2 c s' t' h', herr, hs.2]
  have houtlen : t.hasher.map Hasher.outlen = t'.hasher.map Hasher.outlen := by
    obtain ⟨hinit, hother, -⟩ := outlenAndCfgAreWrittenOnlyByInit c s t h
    obtain ⟨hinit', hother', -⟩ := outlenAndCfgAreWrittenOnlyByInit c s' t' h'
    by_cases hok : t.err = .ok ∧ opOf c = 1
    · rw [(hinit hok.1 hok.2).2, (hinit' (herr ▸ hok.1) hok.2).2]
    · have hnot : t.err ≠ .ok ∨ opOf c ≠ 1 := not_and_or.mp hok
      rw [(hother hnot).2, (hother' (herr ▸ hnot)).2, hs.2]
  exact ⟨⟨hdvalid, houtlen⟩, herr, hresult⟩

/-- Settles O54: DVALID and OUTLEN decide ERR, RESULT and the next DVALID and OUTLEN of every command. -/
theorem hashStateIsSeenOnlyThroughDigest : Obligations.HashStateIsSeenOnlyThroughDigest := by
  intro cs s s' hdvalid houtlen
  refine observations_map_eq_of_related (R := SameDvalidAndOutlen) (fun c s s' hs => ?_) cs ⟨hdvalid, houtlen⟩
  obtain ⟨t, ht⟩ := execute_completes c s
  obtain ⟨t', ht'⟩ := execute_completes c s'
  obtain ⟨hafter, herr, hresult⟩ := hs.after_execute ht ht'
  refine ⟨t, t', ht, ht', hafter, ?_⟩
  simp only [observe, State.status, herr, hresult, hafter.1, hafter.cfg_eq]

end Sys2Proof.Machine

/-! # The message written so far (20_memory.md): what the commands make of it, and the order they take effect in -/

namespace Sys2Proof.Machine

/-! ## The closed form of the hash state, one byte at a time (41_block_processing.md R148, R152) -/

/-- The carry of `T +128 k` makes the addition of a byte count agree with the number the counter holds. -/
theorem Counter.ofNat_add (n k : Nat) (hk : k < 2 ^ 64) :
    (Counter.ofNat n).add (BitVec.ofNat 64 k) = Counter.ofNat (n + k) := by
  have hlow : BitVec.ofNat 64 n + BitVec.ofNat 64 k = BitVec.ofNat 64 (n + k) := (BitVec.ofNat_add n k).symm
  have hcarry : BitVec.ofNat 64 (n + k) < BitVec.ofNat 64 k ↔ 2 ^ 64 ≤ n % 2 ^ 64 + k := by
    simp only [BitVec.lt_def, BitVec.toNat_ofNat]
    omega
  simp only [Counter.ofNat, Counter.add, hlow, hcarry]
  congr 1
  apply BitVec.eq_of_toNat_eq
  split <;> simp only [BitVec.ofNat_eq_ofNat, BitVec.toNat_add, BitVec.toNat_ofNat] <;> omega

/-- The chain value after `i` blocks does not depend on what follows them. -/
theorem chainAfter_append (n : Nat) {bs : List Byte} (more : List Byte) {i : Nat} (h : 128 * i ≤ bs.length) :
    chainAfter n (bs ++ more) i = chainAfter n bs i := by
  induction i with
  | zero => rfl
  | succ i ih =>
    have hblock : ((bs ++ more).drop (128 * i)).take 128 = (bs.drop (128 * i)).take 128 := by
      rw [List.drop_append_of_le_length (by omega), List.take_append_of_le_length (by simp; omega)]
    simp only [chainAfter, hblock, ih (by omega)]

/-- The blocks compressed before SUM are whole blocks of the message. -/
theorem blocksBeforeSum_le (len : Nat) : 128 * blocksBeforeSum len ≤ len := by
  unfold blocksBeforeSum
  omega

/-- One more byte completes no block to be compressed, unless the pending block is full. -/
theorem blocksBeforeSum_succ_of_room {len : Nat} (h : len - 128 * blocksBeforeSum len ≠ 128) :
    blocksBeforeSum (len + 1) = blocksBeforeSum len := by
  unfold blocksBeforeSum at *
  omega

/-- One more byte has the pending block compressed if it is full (41_block_processing.md R147). -/
theorem blocksBeforeSum_succ_of_full {len : Nat} (h : len - 128 * blocksBeforeSum len = 128) :
    blocksBeforeSum (len + 1) = blocksBeforeSum len + 1 := by
  unfold blocksBeforeSum at *
  omega

@[simp] theorem Message.hasher_outlen (m : Message) : m.hasher.outlen = m.outlen := rfl

/-- BUFLEN after a message (41_block_processing.md R153). -/
@[simp] theorem Message.hasher_buf_length (m : Message) :
    m.hasher.buf.length = m.bytes.length - 128 * blocksBeforeSum m.bytes.length :=
  List.length_drop

/-- The message without bytes stands for the fresh hash state (70_reset_and_hazards.md R231). -/
@[simp] theorem Message.hasher_nil (n : Nat) : Message.hasher { outlen := n, bytes := [] } = freshHasher n := by
  simp [Message.hasher, freshHasher, blocksBeforeSum, chainAfter, Counter.ofNat]

/-- Absorbing a byte into the hash state of a message gives that of the message with the byte appended. -/
theorem absorb_message_hasher (m : Message) (b : Byte) :
    absorb m.hasher b = Message.hasher { m with bytes := m.bytes ++ [b] } := by
  have hwhole := blocksBeforeSum_le m.bytes.length
  have hlen : (m.bytes ++ [b]).length = m.bytes.length + 1 := by simp
  by_cases hfull : m.bytes.length - 128 * blocksBeforeSum m.bytes.length = 128
  · have hcount : m.hasher.t.add 128 = Counter.ofNat (128 * (blocksBeforeSum m.bytes.length + 1)) :=
      Counter.ofNat_add _ 128 (by decide)
    have hblock : ((m.bytes ++ [b]).drop (128 * blocksBeforeSum m.bytes.length)).take 128 = m.hasher.buf := by
      rw [List.drop_append_of_le_length hwhole, List.take_left' (by simpa using hfull)]
      rfl
    have hrest : (m.bytes ++ [b]).drop (128 * (blocksBeforeSum m.bytes.length + 1)) = [b] :=
      List.drop_left' (by omega)
    rw [absorb_full b (by simpa using hfull), hcount]
    simp only [Message.hasher, hlen, blocksBeforeSum_succ_of_full hfull, chainAfter, hrest, hblock,
      chainAfter_append m.outlen [b] hwhole]
  · rw [absorb_room b (by simpa using hfull)]
    simp only [Message.hasher, hlen, blocksBeforeSum_succ_of_room hfull, chainAfter_append m.outlen [b] hwhole,
      List.drop_append_of_le_length hwhole]

/-- Absorbing bytes into the hash state of a message gives that of the message with the bytes appended. -/
theorem absorbAll_message_hasher (m : Message) (bs : List Byte) :
    absorbAll m.hasher bs = Message.hasher { m with bytes := m.bytes ++ bs } := by
  induction bs generalizing m with
  | nil => simp
  | cons b bs ih => rw [absorbAll_cons, absorb_message_hasher, ih]; simp

/-! ## What a command makes of the message (20_memory.md R61) -/

/-- A hash state that a message stands for is there exactly when the message is. -/
theorem Represents.cfg_eq {m : Option Message} {s : State} (h : Represents m s) : s.cfg = m.isSome := by
  simp [State.cfg, h]

/-- Where there is a hash state, there is a message, and the hash state is the message's. -/
theorem Represents.exists_message {m : Option Message} {s : State} {x : Hasher} (h : Represents m s)
    (hx : s.hasher = some x) : ∃ y, m = some y ∧ y.hasher = x :=
  Option.map_eq_some_iff.mp (h.symm.trans hx)

/-- A failed command contributes nothing to the message (20_memory.md R61). -/
theorem messageAfter_of_failed {d : Decoded} {m : Option Message} {s : State} (h : Represents m s)
    (hfail : check d s ≠ .ok) : messageAfter m d = m := by
  cases d with
  | illegal why => rfl
  | command i =>
    cases i with
    | init n =>
      have hn : ¬ (1 ≤ n ∧ n ≤ 64) := fun hok => hfail (if_neg (by omega))
      exact if_neg hn
    | write n data =>
      cases m with
      | none => rfl
      | some y =>
        have hn : 8 < n := by simpa [check, h.cfg_eq] using hfail
        simp [messageAfter, hn]
    | sum => rfl
    | reset =>
      cases m with
      | none => rfl
      | some y => simp [check, h.cfg_eq] at hfail
    | size => rfl

/-- Every effect of a command is its effect on the message (20_memory.md R61). -/
theorem CommandEffect.represents {c : Command} {m : Option Message} {s t : State} (h : CommandEffect c s t)
    (hm : Represents m s) : Represents (messageAfter m (decode c)) t := by
  cases h with
  | failed hfail => rw [messageAfter_of_failed hm hfail]; exact hm
  | init hdec hlo hhi => simp [Represents, hdec, messageAfter, hlo, hhi]
  | write hdec hn hx =>
    obtain ⟨y, rfl, rfl⟩ := hm.exists_message hx
    simp [Represents, hdec, messageAfter, hn, absorbAll_message_hasher]
  | sum hdec => rw [hdec]; exact hm
  | reset hdec hx =>
    obtain ⟨y, rfl, rfl⟩ := hm.exists_message hx
    simp [Represents, hdec, messageAfter]
  | size hdec => rw [hdec]; exact hm

/-- Settles O45: a command completes, and what it does to the hash state is what it makes of the message. -/
theorem commandsRefineTheByteStream : Obligations.CommandsRefineTheByteStream := by
  intro c s m hm
  obtain ⟨t, ht⟩ := execute_completes c s
  exact ⟨t, ht, (commandEffect_of_execute ht).represents hm⟩

/-! ## The stream of commands (20_memory.md R58, R61) -/

/-- Every command keeps the commands to come (log entry 2). -/
theorem CommandEffect.stream_eq {c : Command} {s t : State} (h : CommandEffect c s t) : t.stream = s.stream := by
  cases h with
  | _ => rfl

/-- No command reads or writes the stream: its effect is the same in front of any commands to come. -/
theorem CommandEffect.with_stream {c : Command} {s t : State} (h : CommandEffect c s t) (cs : List Command) :
    CommandEffect c { s with stream := cs } { t with stream := cs } := by
  cases h with
  | failed hfail => exact .failed (s := { s with stream := cs }) hfail
  | init hdec hlo hhi => exact .init hdec hlo hhi
  | write hdec hn hx => exact .write (s := { s with stream := cs }) hdec hn hx
  | sum hdec hx => exact .sum (s := { s with stream := cs }) hdec hx
  | reset hdec hx => exact .reset (s := { s with stream := cs }) hdec hx
  | size hdec hx => exact .size (s := { s with stream := cs }) hdec hx

theorem execute_with_stream {c : Command} {s t : State} (h : execute c s = .next t) (cs : List Command) :
    execute c { s with stream := cs } = .next { t with stream := cs } :=
  execute_eq_next_iff.mpr ((commandEffect_of_execute h).with_stream cs)

theorem runCommands_cons {c : Command} {s t : State} (h : execute c s = .next t) (cs : List Command) :
    runCommands (c :: cs) s = runCommands cs t := by
  simp [runCommands, h]

theorem run_succ_of_step {M : Host.Core} {s t : M.State} (h : M.step s = .next t) (k : Nat) :
    M.run (k + 1) s = M.run k t := by
  simp [Host.Core.run, h]

/-- One step and the rest of a run, where the host issues a command. -/
theorem run_succ_of_execute {c : Command} {cs : List Command} {s t : State}
    (h : execute c { s with stream := cs } = .next t) (k : Nat) :
    Host.Core.run core (k + 1) { s with stream := c :: cs } = Host.Core.run core k t := by
  have hstep : core.step { s with stream := c :: cs } = .next t := h
  exact run_succ_of_step hstep k

/-- As many steps as the stream is long execute its commands in order (20_memory.md R61). -/
theorem run_with_stream (cs : List Command) (s : State) :
    Host.Core.run core cs.length { s with stream := cs } = runCommands cs { s with stream := [] } := by
  induction cs generalizing s with
  | nil => rfl
  | cons c cs ih =>
    obtain ⟨t, ht⟩ := execute_completes c s
    rw [List.length_cons, run_succ_of_execute (execute_with_stream ht cs), ih,
      runCommands_cons (execute_with_stream ht [])]

/-- Settles O8, by induction on the stream: no command reads or writes what is still to be issued. -/
theorem stepsExecuteTheStreamInOrder : Obligations.StepsExecuteTheStreamInOrder :=
  fun s => run_with_stream s.stream s

/-- A run keeps the hash state the one that the message written so far stands for (20_memory.md R61), and the commands
to come as they are. -/
theorem runCommands_represents (cs : List Command) {m : Option Message} {s : State} (hm : Represents m s) :
    ∃ t, runCommands cs s = .next t ∧ Represents (cs.foldl (fun m c => messageAfter m (decode c)) m) t ∧
      t.stream = s.stream := by
  induction cs generalizing m s with
  | nil => exact ⟨s, rfl, hm, rfl⟩
  | cons c cs ih =>
    obtain ⟨u, hu, hmu⟩ := commandsRefineTheByteStream c s m hm
    obtain ⟨t, ht, hmt, hstream⟩ := ih hmu
    exact ⟨t, by rw [runCommands_cons hu, ht], hmt, hstream.trans (commandEffect_of_execute hu).stream_eq⟩

/-- Settles O46: at power-on there is no message, and every command of the run keeps what O45 says. -/
theorem runFromPowerOnHashesTheByteStream : Obligations.RunFromPowerOnHashesTheByteStream := by
  intro cs
  rw [powerOn, run_with_stream]
  exact runCommands_represents cs rfl

/-! ## Idempotent commands (20_memory.md R59) -/

/-- Settles O25: after a failed command the same check fails; after a passed one the hash state is there, with
the same OUTLEN, and SUM finds the one it found before. -/
theorem initSumResetSizeAreIdempotent : Obligations.InitSumResetSizeAreIdempotent := by
  intro i s t hwrite h
  cases i with
  | init n =>
    rcases execInit_cases h with ⟨hn, rfl⟩ | ⟨hlo, hhi, rfl⟩
    · exact if_pos hn
    · exact if_neg (by omega)
  | write n data => exact absurd rfl (hwrite n data)
  | sum =>
    rcases execSum_cases h with ⟨hx, rfl⟩ | ⟨x, hx, rfl⟩
    · exact whenConfigured_none hx
    · exact whenConfigured_some hx
  | reset =>
    rcases execReset_cases h with ⟨hx, rfl⟩ | ⟨x, hx, rfl⟩
    · exact whenConfigured_none hx
    · rw [exec_reset_eq, execReset, whenConfigured_some (complete_hasher _ _)]
      rfl
  | size =>
    rcases execSize_cases h with ⟨hx, rfl⟩ | ⟨x, hx, rfl⟩
    · exact whenConfigured_none hx
    · exact whenConfigured_some hx

/-! ## The byte order of a block (20_memory.md R52, R55) -/

/-- Byte lane `k` of the word at position `i` is the byte at position `i + k`. -/
theorem byteOf_le64At (bs : List Byte) (i : Nat) {k : Nat} (hk : k < 8) :
    byteOf (le64At bs i) k = bs.getD (i + k) 0 := by
  rw [le64At, byteOf_leWord _ k hk]
  simp [hk]

/-- Word `j` of a block is the little-endian word at its byte `8j` (41_block_processing.md R142). -/
theorem decodeBlock_getElem (block : List Byte) (j : Fin 16) :
    (decodeBlock block)[j] = le64At block (8 * j.val) := by
  simp [decodeBlock]

/-- Settles O37: every index into a block of 128 bytes is within it. -/
theorem messageWordsAreLittleEndian : Obligations.MessageWordsAreLittleEndian := by
  intro block j k hlen
  have hindex : 8 * j.val + k.val < block.length := by omega
  rw [decodeBlock_getElem, ← byteOf, byteOf_le64At block _ k.isLt, List.getElem?_eq_getElem hindex,
    List.getD_eq_getElem _ _ hindex]

end Sys2Proof.Machine

/-! # The command words (30_encoding.md): decoder and encoder, and the pseudo-commands WRITES and ONESHOT -/

namespace Sys2Proof

/-- A term is well-formed exactly when its operand fits ARG (30_encoding.md R79). -/
theorem Instr.wf_iff_argField_lt (i : Instr) : i.wf = true ↔ i.argField < 256 := by
  cases i with
  | init n => exact decide_eq_true_iff
  | write n data => exact decide_eq_true_iff
  | sum => decide
  | reset => decide
  | size => decide

/-- The opcode map reads exactly the command of its OP and ARG, and of all of DATA where that is WRITE
(30_encoding.md R75, R77). -/
theorem decodeOp_eq_command_iff {op arg : Nat} {data : BitVec 64} {i : Instr} :
    decodeOp op arg data = .command i ↔
      op = i.opcode ∧ arg = i.argField ∧ ∀ n d, i = .write n d → d = data := by
  constructor
  · intro h
    obtain ⟨rfl, rfl⟩ := decodeOp_eq_command h
    refine ⟨rfl, rfl, ?_⟩
    rintro n d rfl
    cases h
    rfl
  · rintro ⟨rfl, rfl, hdata⟩
    cases i with
    | write n d => rw [hdata n d rfl]; rfl
    | init n => rfl
    | sum => rfl
    | reset => rfl
    | size => rfl

end Sys2Proof

namespace Sys2Proof.Machine

/-- A word decodes to a command exactly when RSV = 0 and its other fields are the command's (30_encoding.md R77). -/
theorem decode_eq_command_iff {c : Command} {i : Instr} :
    decode c = .command i ↔
      rsvOf c = 0 ∧ opOf c = i.opcode ∧ argOf c = i.argField ∧ ∀ n d, i = .write n d → d = c.data := by
  rw [← decodeOp_eq_command_iff, opOf, rsvOf, argOf, ← cmdRsv_eq, ← cmdOp_eq, ← cmdArg_eq, decode]
  by_cases hrsv : cmdRsv c.cmd = 0
  · simp [hrsv]
  · simp [hrsv]

/-- The decoder reads an encoded command back (30_encoding.md R75, R77, R79). -/
theorem decode_encode {i : Instr} (h : i.wf = true) : decode (encode i) = .command i := by
  have hrsv : rsvOf (encode i) = 0 := by rw [← cmdRsv_encode i, cmdRsv_eq]
  have hop : opOf (encode i) = i.opcode := by rw [← cmdOp_encode i, cmdOp_eq]
  have harg : argOf (encode i) = i.argField := by
    rw [← Laws.EncodedFields.argField_of_lt ((Instr.wf_iff_argField_lt i).mp h), cmdArg_eq]
  refine decode_eq_command_iff.mpr ⟨hrsv, hop, harg, ?_⟩
  rintro n d rfl
  rfl

/-- Settles O1: the three fields of an encoded word are the command's, and WRITE's DATA is its own. -/
theorem decodeOfEncodeIsTheCommand : Obligations.DecodeOfEncodeIsTheCommand :=
  fun _ => decode_encode

/-- The three fields make up the whole command word (30_encoding.md R70). -/
theorem cmd_toNat_eq_fields (c : Command) : c.cmd.toNat = opOf c * 2 ^ 24 + rsvOf c * 2 ^ 8 + argOf c := by
  unfold opOf rsvOf argOf
  omega

theorem opOf_lt (c : Command) : opOf c < 256 := by
  have hword := c.cmd.isLt
  unfold opOf
  omega

theorem argOf_lt (c : Command) : argOf c < 256 := Nat.mod_lt _ (by decide)

/-- Settles O2: the three fields make up the whole word, and OP and ARG are bytes. -/
theorem encodeOfDecodedWordIsTheWord : Obligations.EncodeOfDecodedWordIsTheWord := by
  intro c i hdec
  obtain ⟨hrsv, hop, harg, hdata⟩ := decode_eq_command_iff.mp hdec
  refine ⟨(Instr.wf_iff_argField_lt i).mpr (harg ▸ argOf_lt c), BitVec.eq_of_toNat_eq ?_, ?_⟩
  · rw [encode_cmd_toNat, cmd_toNat_eq_fields, hrsv, ← hop, ← harg, Nat.mod_eq_of_lt (opOf_lt c),
      Nat.mod_eq_of_lt (argOf_lt c), Nat.zero_mul, Nat.add_zero]
  · rintro n d rfl
    exact hdata n d rfl

/-! ## Illegal words (30_encoding.md R76) -/

/-- A word selects a command exactly when none of the three conditions of R76 holds. -/
theorem not_illegalWord_iff (c : Command) : ¬ IllegalWord c ↔ ∃ i, decode c = .command i := by
  simp only [decode_eq_command_iff]
  constructor
  · intro hlegal
    have hrsv : rsvOf c = 0 := by omega
    have hop : opOf c = 1 ∨ opOf c = 2 ∨ (opOf c = 3 ∨ opOf c = 4 ∨ opOf c = 5) ∧ argOf c = 0 := by omega
    rcases hop with h | h | ⟨h | h | h, harg⟩
    · exact ⟨.init (argOf c), hrsv, h, rfl, by simp⟩
    · exact ⟨.write (argOf c) c.data, hrsv, h, rfl, by simp⟩
    · exact ⟨.sum, hrsv, h, harg, by simp⟩
    · exact ⟨.reset, hrsv, h, harg, by simp⟩
    · exact ⟨.size, hrsv, h, harg, by simp⟩
  · rintro ⟨i, hrsv, hop, harg, -⟩
    cases i with
    | init n => rw [opcode_init] at hop; omega
    | write n data => rw [opcode_write] at hop; omega
    | sum => rw [opcode_sum] at hop; rw [argField_sum] at harg; omega
    | reset => rw [opcode_reset] at hop; rw [argField_reset] at harg; omega
    | size => rw [opcode_size] at hop; rw [argField_size] at harg; omega

/-- The decoder has one verdict for every word: it is illegal exactly when it selects no command. -/
theorem illegalWord_iff (c : Command) : IllegalWord c ↔ ∃ why, decode c = .illegal why := by
  rw [← not_iff_not, not_illegalWord_iff]
  cases decode c with
  | command i => simp
  | illegal why => simp

/-- Settles O3: the decoder is illegal exactly on the words of R76, and an illegal word is raised as such. -/
theorem illegalWordsRaiseIllegalCommand : Obligations.IllegalWordsRaiseIllegalCommand := by
  refine fun c s => ⟨illegalWord_iff c, not_illegalWord_iff c, fun hillegal => ?_⟩
  obtain ⟨why, hdec⟩ := (illegalWord_iff c).mp hillegal
  simp [execute, hdec, State.raise]

/-- Settles O4: the decoder run on each word. -/
theorem opcodeMapWordsDecode : Obligations.OpcodeMapWordsDecode :=
  ⟨rfl, rfl, rfl, rfl, rfl, rfl, rfl, rfl⟩

/-! ## The bytes of DATA (30_encoding.md R74, R81) -/

/-- The low `n` bytes of two words are the same if their low `8n` bits are. -/
theorem laneBytes_congr {n : Nat} {d d' : Word} (h : ∀ i, i < 8 * n → d.getLsbD i = d'.getLsbD i) :
    laneBytes n d = laneBytes n d' := by
  refine List.map_congr_left fun k hk => BitVec.eq_of_getLsbD_eq fun j hj => ?_
  have hbit : 8 * k + j < 8 * n := by have := List.mem_range.mp hk; omega
  rw [byteOf_getLsbD, byteOf_getLsbD, h _ hbit]

/-- Settles O24: WRITE reads DATA only through the bytes it takes. -/
theorem writeIgnoresTheUpperLanes : Obligations.WriteIgnoresTheUpperLanes := by
  intro n d d' s h
  simp only [exec_write_eq, execWrite, laneBytes_congr h]

/-- WRITE takes back the bytes that an assembler put into DATA (30_encoding.md R81). -/
theorem laneBytes_leWord {bs : List Byte} (h : bs.length ≤ 8) : laneBytes bs.length (leWord bs) = bs := by
  refine List.ext_getElem (laneBytes_length _ _) fun k _ hk => ?_
  simp [laneBytes, byteOf_leWord bs k (by omega), hk]

/-! ## WRITES as a list of WRITE commands (30_encoding.md R81) -/

/-- Chunk `c` of a byte sequence: its 8 bytes from byte `8c` on, or what is left of it there. -/
def byteChunk (bytes : List Byte) (c : Nat) : List Byte := (bytes.drop (8 * c)).take 8

theorem byteChunk_length (bytes : List Byte) (c : Nat) :
    (byteChunk bytes c).length = min 8 (bytes.length - 8 * c) := by
  simp [byteChunk]

/-- The first `k` chunks are the first `8k` bytes. -/
theorem flatMap_byteChunk (bytes : List Byte) (k : Nat) :
    (List.range k).flatMap (byteChunk bytes) = bytes.take (8 * k) := by
  induction k with
  | zero => simp
  | succ k ih => simp [List.range_succ, ih, byteChunk, Nat.mul_succ, List.take_add]

/-- The byte counts and DATA words of WRITES. -/
def writeSPairs (bytes : List Byte) : List (Nat × BitVec 64) :=
  if bytes.length = 0 then [(0, 0)]
  else (List.range ((bytes.length + 7) / 8)).map fun c =>
    ((byteChunk bytes c).length, leWord (byteChunk bytes c))

/-- WRITES is the WRITE commands of its byte counts and DATA words. -/
theorem assemble_writeS (bytes : List Byte) : assemble (writeS bytes) = writeCommands (writeSPairs bytes) := by
  unfold writeS writeSPairs writeCommands
  split
  · rfl
  · simp only [byteChunk_length, List.map_map]
    rfl

/-- Every command of WRITES is in range (30_encoding.md R81). -/
theorem writeSPairs_le (bytes : List Byte) : ∀ w ∈ writeSPairs bytes, w.1 ≤ 8 := by
  intro w hw
  unfold writeSPairs at hw
  split at hw
  · rw [List.mem_singleton.mp hw]
    decide
  · obtain ⟨c, -, rfl⟩ := List.mem_map.mp hw
    simp [byteChunk_length]

/-- The commands of WRITES carry all its bytes, in order (30_encoding.md R81). -/
theorem writtenBytes_writeSPairs (bytes : List Byte) : writtenBytes (writeSPairs bytes) = bytes := by
  have hlanes : ∀ c, dataLanes (byteChunk bytes c).length (leWord (byteChunk bytes c)) = byteChunk bytes c :=
    fun c => laneBytes_leWord (by simp [byteChunk_length])
  unfold writtenBytes writeSPairs
  split
  case isTrue hempty => exact (List.eq_nil_of_length_eq_zero hempty).symm
  case isFalse =>
    simp only [List.flatMap_map, hlanes]
    exact (flatMap_byteChunk bytes _).trans (List.take_of_length_le (by omega))

/-! ## Running WRITE commands (20_memory.md R61) -/

/-- A WRITE in range on a configured core absorbs its bytes (42_commands.md R172). -/
theorem execute_encode_write {s : State} {x : Hasher} {n : Nat} (data : BitVec 64) (hx : s.hasher = some x)
    (hn : n ≤ 8) : execute (encode (.write n data)) s =
      .next ({ s with hasher := some (absorbAll x (dataLanes n data)) }.complete n) :=
  execute_eq_next_iff.mpr (.write (decode_encode (decide_eq_true (by omega))) hn hx)

theorem writeCommands_cons (w : Nat × BitVec 64) (ws : List (Nat × BitVec 64)) :
    writeCommands (w :: ws) = encode (.write w.1 w.2) :: writeCommands ws := rfl

theorem writtenBytes_cons (w : Nat × BitVec 64) (ws : List (Nat × BitVec 64)) :
    writtenBytes (w :: ws) = dataLanes w.1 w.2 ++ writtenBytes ws := rfl

/-- WRITE commands in range absorb the bytes they carry, in order (20_memory.md R61). -/
theorem runCommands_writeCommands {ws : List (Nat × BitVec 64)} (hws : ∀ w ∈ ws, w.1 ≤ 8) {s : State} {x : Hasher}
    (hx : s.hasher = some x) :
    ∃ t, runCommands (writeCommands ws) s = .next t ∧ t.hasher = some (absorbAll x (writtenBytes ws)) := by
  induction ws generalizing s x with
  | nil => exact ⟨s, rfl, hx⟩
  | cons w ws ih =>
    obtain ⟨hw, hrest⟩ := List.forall_mem_cons.mp hws
    have hstep := execute_encode_write w.2 hx hw
    obtain ⟨t, hrun, ht⟩ := ih hrest (complete_hasher { s with hasher := some _ } w.1)
    refine ⟨t, (runCommands_cons hstep _).trans hrun, ?_⟩
    rw [ht, writtenBytes_cons, absorbAll_append]

/-- A run records no error if its first command ends with OK and the rest records none (60_exceptions.md R208). -/
theorem noErrorRecorded_cons {t : State} {os : List Observation} (ht : t.err = .ok) (hos : NoErrorRecorded os) :
    NoErrorRecorded (observe t :: os) := by
  have hcode : (observe t).status.extractLsb' 0 4 = t.err.code := (statusWordLayout.2 t).2.1
  have hzero : t.err.code = 0 := by rw [ht]; rfl
  unfold NoErrorRecorded recordedErrors at *
  rw [List.map_cons, hcode, hzero]
  simpa using hos

/-- WRITE commands in range return the numbers of their bytes and record no error. -/
theorem observations_writeCommands {ws : List (Nat × BitVec 64)} (hws : ∀ w ∈ ws, w.1 ≤ 8) {s : State} {x : Hasher}
    (hx : s.hasher = some x) :
    ((observations (writeCommands ws) s).map fun o => o.result.toNat).sum = (writtenBytes ws).length ∧
      NoErrorRecorded (observations (writeCommands ws) s) := by
  induction ws generalizing s x with
  | nil => exact ⟨rfl, rfl⟩
  | cons w ws ih =>
    obtain ⟨hw, hrest⟩ := List.forall_mem_cons.mp hws
    obtain ⟨hsum, hnone⟩ := ih hrest
      (complete_hasher { s with hasher := some (absorbAll x (dataLanes w.1 w.2)) } w.1)
    have hresult : (BitVec.ofNat 32 w.1).toNat = (dataLanes w.1 w.2).length := by
      rw [BitVec.toNat_ofNat, Nat.mod_eq_of_lt (by omega)]
      exact (laneBytes_length w.1 w.2).symm
    rw [writeCommands_cons, observations_cons (execute_encode_write w.2 hx hw)]
    refine ⟨?_, noErrorRecorded_cons rfl hnone⟩
    rw [List.map_cons, List.sum_cons, hsum, writtenBytes_cons, List.length_append, ← hresult]
    rfl

/-- Settles O49: WRITES is WRITE commands in range that carry its bytes. -/
theorem writesAbsorbsAllItsBytes : Obligations.WritesAbsorbsAllItsBytes := by
  intro s x bytes hx
  have hle := writeSPairs_le bytes
  have hrun := runCommands_writeCommands hle hx
  have hobs := observations_writeCommands hle hx
  rw [writtenBytes_writeSPairs, ← assemble_writeS] at hrun hobs
  exact ⟨hrun, hobs⟩

/-! ## ONESHOT (30_encoding.md R82) -/

/-- The digest computed from the hash state of a message is the message's, in closed form (41_block_processing.md R145,
R152). -/
theorem finalize_message_hasher (m : Message) : finalize m.hasher = m.digest := by
  have hwhole := blocksBeforeSum_le m.bytes.length
  have hpending : m.bytes.length - 128 * blocksBeforeSum m.bytes.length ≤ 128 := by
    unfold blocksBeforeSum
    omega
  have hcount : m.hasher.t.add (BitVec.ofNat 64 m.hasher.buf.length) = Counter.ofNat m.bytes.length := by
    rw [Message.hasher_buf_length, Message.hasher, Counter.ofNat_add _ _ (by omega), Nat.add_sub_cancel' hwhole]
  rw [finalize, finalChain, hcount, Message.hasher_buf_length, Message.digest]
  by_cases hempty : m.bytes.length = 0
  · have hnil : m.bytes = [] := List.eq_nil_of_length_eq_zero hempty
    simp [Message.hasher, hnil, blocksBeforeSum, chainAfter]
  · have hblocks : (m.bytes.length + 127) / 128 - 1 = blocksBeforeSum m.bytes.length := by
      unfold blocksBeforeSum; omega
    have hpad : 128 - (m.bytes.length - 128 * blocksBeforeSum m.bytes.length) =
        128 * ((m.bytes.length + 127) / 128) - m.bytes.length := by
      omega
    rw [if_neg hempty, hpad]
    simp only [hblocks]
    rfl

/-- DIGEST after SUM on the hash state of a message (42_commands.md R173, 41_block_processing.md R152). -/
theorem digestOf_message_hasher (m : Message) : digestOf m.hasher = padDigest m.digest := by
  have hlen : m.digest.length = m.outlen := by rw [← finalize_message_hasher, finalize_length, Message.hasher_outlen]
  rw [digestOf, padDigest, finalize_message_hasher, Message.hasher_outlen]
  refine congrArg Vector.ofFn (funext fun i => ?_)
  by_cases hi : i.val < m.outlen
  · rw [if_pos hi]
  · rw [if_neg hi, List.getD_eq_default _ _ (by omega)]

/-- A sequence of commands is run part by part (20_memory.md R61). -/
theorem runCommands_append {cs : List Command} {s t : State} (h : runCommands cs s = .next t) (ds : List Command) :
    runCommands (cs ++ ds) s = runCommands ds t := by
  induction cs generalizing s with
  | nil => cases h; rfl
  | cons c cs ih =>
    obtain ⟨u, hu⟩ := execute_completes c s
    rw [runCommands_cons hu] at h
    rw [List.cons_append, runCommands_cons hu, ih h]

/-- INIT in range makes a fresh hash state from any state (42_commands.md R171). -/
theorem execute_encode_init (s : State) {n : Nat} (hlo : 1 ≤ n) (hhi : n ≤ 64) : execute (encode (.init n)) s =
      .next ({ s with hasher := some (freshHasher n), dvalid := false }.complete n) :=
  execute_eq_next_iff.mpr (.init (decode_encode (decide_eq_true (by omega))) hlo hhi)

/-- SUM on a configured core leaves the digest of its hash state (42_commands.md R173). -/
theorem execute_encode_sum {s : State} {x : Hasher} (hx : s.hasher = some x) : execute (encode .sum) s =
      .next ({ s with digest := some (digestOf x), dvalid := true }.complete x.outlen) :=
  execute_eq_next_iff.mpr (.sum (decode_encode rfl) hx)

/-- Settles O48: INIT leaves the hash state of the empty message, WRITES that of its bytes, and SUM the digest. -/
theorem oneShotGivesTheMessageDigest : Obligations.OneShotGivesTheMessageDigest := by
  intro s o bytes hlo hhi
  obtain ⟨u, hrun, hu⟩ := runCommands_writeCommands (writeSPairs_le bytes)
    (complete_hasher { s with hasher := some (freshHasher (o.getD 64)), dvalid := false } (o.getD 64))
  rw [writtenBytes_writeSPairs, ← Message.hasher_nil, absorbAll_message_hasher, List.nil_append] at hu
  have hparts : assemble (oneShot o bytes) =
      encode (.init (o.getD 64)) :: (writeCommands (writeSPairs bytes) ++ [encode .sum]) := by
    rw [← assemble_writeS]
    simp [assemble, oneShot, Config.defaultOutlen]
  have hall : runCommands (assemble (oneShot o bytes)) s = runCommands [encode .sum] u := by
    rw [hparts, runCommands_cons (execute_encode_init s hlo hhi), runCommands_append hrun]
  refine ⟨_, hall.trans (runCommands_cons (execute_encode_sum hu) []), rfl, rfl, rfl, ?_⟩
  exact congrArg some (digestOf_message_hasher _)

end Sys2Proof.Machine

/-! # The compression function (40_compression.md): the mixing steps, the rounds and the vector they start from -/

namespace Sys2Proof.Machine

/-! ## The mixing primitive G (40_compression.md R103 to R105) -/

/-- ROTR by less than a word is the library's rotation to the right. -/
theorem rotr_eq_rotateRight (x : Word) {n : Nat} (h : n < 64) : rotr x n = x.rotateRight n := by
  rw [rotr, BitVec.rotateRight_def, Nat.mod_eq_of_lt h]

/-- ROTR takes bit `i` from `n` places above it, around the end of the word. -/
theorem rotr_getLsbD (x : Word) {n i : Nat} (hn : n < 64) (hi : i < 64) :
    (rotr x n).getLsbD i = x.getLsbD ((i + n) % 64) := by
  rw [rotr_eq_rotateRight x hn, BitVec.getLsbD_rotateRight_of_lt hn]
  by_cases hlow : i < 64 - n
  · have hindex : (i + n) % 64 = n + i := by omega
    simp [hlow, hindex]
  · have hindex : (i + n) % 64 = i - (64 - n) := by omega
    simp [hlow, hi, hindex]

/-- Settles O30: the four distances are below the width of a word. -/
theorem rotrMovesBits : Obligations.RotrMovesBits := by
  intro x n i hn hi
  have hlt : ∀ n ∈ [16, 24, 32, 63], n < 64 := by decide
  exact rotr_getLsbD x (hlt n hn) hi

/-- Settles O31: the rotations of G are by less than a word. -/
theorem mixGRunsItsEightStatements : Obligations.MixGRunsItsEightStatements := by
  intro a b c d x y
  simp [mixG, rotr_eq_rotateRight]

/-! ## Steps on different slots (40_compression.md R106, R113) -/

/-- The four slots of a step, in the order G writes them. -/
def Quad.slots (p : Quad (Fin 16)) : List (Fin 16) := [p.a, p.b, p.c, p.d]

/-- What a slot holds after the four words of a step are written: the word written to it last, if any. -/
theorem writeSlots_getElem (v : WorkVector) (p : Quad (Fin 16)) (q : Quad Word) (k : Fin 16) :
    (writeSlots v p q)[k] =
      if p.d = k then q.d else if p.c = k then q.c else if p.b = k then q.b else if p.a = k then q.a else v[k] := by
  simp [writeSlots, Vector.getElem_set, Fin.ext_iff]

/-- A step leaves every slot but its own four as it was. -/
theorem writeSlots_getElem_of_notMem (v : WorkVector) {p : Quad (Fin 16)} (q : Quad Word) {k : Fin 16}
    (hk : k ∉ p.slots) : (writeSlots v p q)[k] = v[k] := by
  simp only [Quad.slots, List.mem_cons, List.not_mem_nil, or_false, not_or, eq_comm (a := k)] at hk
  obtain ⟨ha, hb, hc, hd⟩ := hk
  rw [writeSlots_getElem, if_neg hd, if_neg hc, if_neg hb, if_neg ha]

/-- What a step writes to its own slots does not depend on what stood in the vector. -/
theorem writeSlots_getElem_of_mem (v w : WorkVector) {p : Quad (Fin 16)} (q : Quad Word) {k : Fin 16}
    (hk : k ∈ p.slots) : (writeSlots v p q)[k] = (writeSlots w p q)[k] := by
  simp only [Quad.slots, List.mem_cons, List.not_mem_nil, or_false] at hk
  rw [writeSlots_getElem, writeSlots_getElem]
  obtain rfl | rfl | rfl | rfl := hk <;> simp

/-- Four slots are read as before once four others have been written. -/
theorem readSlots_writeSlots_of_disjoint (v : WorkVector) {p p' : Quad (Fin 16)} (q : Quad Word)
    (h : p'.slots.Disjoint p.slots) : readSlots (writeSlots v p q) p' = readSlots v p' := by
  have hread : ∀ k ∈ p'.slots, (writeSlots v p q)[k] = v[k] :=
    fun k hk => writeSlots_getElem_of_notMem v q (h hk)
  simp only [Quad.slots, List.forall_mem_cons] at hread
  obtain ⟨ha, hb, hc, hd, -⟩ := hread
  rw [readSlots, readSlots, ha, hb, hc, hd]

/-- Extensionality over the slots as the steps number them. -/
theorem workVector_ext {v w : WorkVector} (h : ∀ k : Fin 16, v[k] = w[k]) : v = w :=
  Vector.ext fun i hi => h ⟨i, hi⟩

/-- Writes to disjoint slots may be done in either order. -/
theorem writeSlots_comm_of_disjoint (v : WorkVector) {p p' : Quad (Fin 16)} (q q' : Quad Word)
    (h : p.slots.Disjoint p'.slots) :
    writeSlots (writeSlots v p q) p' q' = writeSlots (writeSlots v p' q') p q := by
  refine workVector_ext fun k => ?_
  by_cases hp : k ∈ p.slots
  · rw [writeSlots_getElem_of_notMem _ q' (h hp)]
    exact writeSlots_getElem_of_mem _ _ q hp
  rw [writeSlots_getElem_of_notMem _ q hp]
  by_cases hp' : k ∈ p'.slots
  · exact writeSlots_getElem_of_mem _ _ q' hp'
  · simp only [writeSlots_getElem_of_notMem _ q' hp', writeSlots_getElem_of_notMem _ q hp]

/-- Two steps of a round on disjoint slots may be done in either order: neither reads what the other writes. -/
theorem mixStep_comm_of_disjoint (m : MessageBlock) (row : Vector (Fin 16) 16) (v : WorkVector) {i j : Fin 8}
    (h : stepSlots[i].slots.Disjoint stepSlots[j].slots) :
    mixStep m row (mixStep m row v i) j = mixStep m row (mixStep m row v j) i := by
  simp only [mixStep]
  rw [readSlots_writeSlots_of_disjoint v _ h.symm, readSlots_writeSlots_of_disjoint v _ h,
    writeSlots_comm_of_disjoint v _ _ h]

/-- Steps whose slots are pairwise disjoint may be done in any order. -/
theorem mixSteps_perm_of_disjoint (m : MessageBlock) (row : Vector (Fin 16) 16) (v : WorkVector)
    {steps steps' : List (Fin 8)} (hperm : steps.Perm steps')
    (h : ∀ i ∈ steps', ∀ j ∈ steps', i ≠ j → stepSlots[i].slots.Disjoint stepSlots[j].slots) :
    mixSteps m row v steps = mixSteps m row v steps' := by
  refine hperm.foldl_eq' (fun i hi j hj w => ?_) v
  by_cases hij : i = j
  · rw [hij]
  · exact mixStep_comm_of_disjoint m row w (h i (hperm.mem_iff.mp hi) j (hperm.mem_iff.mp hj) hij)

/-- Settles O35: no two columns share a slot, and no two diagonals do. -/
theorem columnAndDiagonalStepsCommute : Obligations.ColumnAndDiagonalStepsCommute := by
  intro m row v steps
  exact ⟨fun hcolumns => mixSteps_perm_of_disjoint m row v hcolumns (by unfold List.Disjoint; decide),
    fun hdiagonals => mixSteps_perm_of_disjoint m row v hdiagonals (by unfold List.Disjoint; decide)⟩

/-! ## Rounds (40_compression.md R107, R110, R111) -/

/-- Every row of SIGMA is a permutation of 0..15 (40_compression.md R101). -/
theorem sigma_row_count (r : Fin 10) (k : Fin 16) : sigma[r].toList.count k = 1 := by
  revert r k
  decide

/-- Steps in the order of a list, the first of them to the vector `w`. -/
theorem mixSteps_cons_of_eq {m : MessageBlock} {row : Vector (Fin 16) 16} {v w : WorkVector} {i : Fin 8}
    (h : mixStep m row v i = w) (steps : List (Fin 8)) : mixSteps m row v (i :: steps) = mixSteps m row w steps :=
  congrArg (List.foldl (mixStep m row) · steps) h

/-- Settles O34: the steps 0 to 7 lead from each of the vectors to the next, and rows and slots are counted. -/
theorem roundUsesEveryWordOnceAndEverySlotTwice : Obligations.RoundUsesEveryWordOnceAndEverySlotTwice := by
  refine ⟨?_, fun r k => sigma_row_count ⟨r.val % 10, Nat.mod_lt _ (by decide)⟩ k, by decide⟩
  intro m v₀ r s g v₁ v₂ v₃ v₄ v₅ v₆ v₇ v₈
  calc mixRound m v₀ r
    _ = mixSteps m s v₁ [1, 2, 3, 4, 5, 6, 7] := mixSteps_cons_of_eq rfl _
    _ = mixSteps m s v₂ [2, 3, 4, 5, 6, 7] := mixSteps_cons_of_eq rfl _
    _ = mixSteps m s v₃ [3, 4, 5, 6, 7] := mixSteps_cons_of_eq rfl _
    _ = mixSteps m s v₄ [4, 5, 6, 7] := mixSteps_cons_of_eq rfl _
    _ = mixSteps m s v₅ [5, 6, 7] := mixSteps_cons_of_eq rfl _
    _ = mixSteps m s v₆ [6, 7] := mixSteps_cons_of_eq rfl _
    _ = mixSteps m s v₇ [7] := mixSteps_cons_of_eq rfl _
    _ = v₈ := mixSteps_cons_of_eq rfl []

/-- The 12 rounds, written out in order (40_compression.md R110). -/
theorem mixRounds_eq_foldl (m : MessageBlock) (v : WorkVector) :
    mixRounds m v = [0, 1, 2, 3, 4, 5, 6, 7, 8, 9, 10, 11].foldl (mixRound m) v := rfl

theorem feedForward_getElem (h : ChainValue) (v : WorkVector) (i : Fin 8) :
    (feedForward h v)[i] = h[i] ^^^ v[i.val] ^^^ v[i.val + 8] := by
  simp [feedForward]

/-- Settles O33: the feed-forward of the vector after the 12 rounds. -/
theorem compressFeedsForward : Obligations.CompressFeedsForward := by
  intro h m t f i
  rw [compress, feedForward_getElem, mixRounds_eq_foldl]

/-! ## The vector before the first round (40_compression.md R109) -/

theorem Counter.value_low (t : Counter) : t.value.extractLsb' 0 64 = t.t0 := BitVec.extractLsb'_append_eq_right

theorem Counter.value_high (t : Counter) : t.value.extractLsb' 64 64 = t.t1 := BitVec.extractLsb'_append_eq_left

/-- A word of the working vector before the first round: IV follows the chain value, and the words 12, 13 and 14 are
changed. -/
theorem workVector_getElem (h : ChainValue) (t : Counter) (f : Bool) {i : Nat} (hi : i < 16) :
    (workVector h t f)[i] =
      if i = 14 ∧ f = true then ~~~ iv[6]
      else if i = 13 then iv[5] ^^^ t.t1
      else if i = 12 then iv[4] ^^^ t.t0
      else if _ : i < 8 then h[i] else iv[i - 8] := by
  have hones : iv[6] ^^^ 0xFFFFFFFFFFFFFFFF#64 = ~~~ iv[6] := BitVec.xor_allOnes
  cases f with
  | false => simp [workVector, Vector.getElem_set, eq_comm (b := i)]
  | true => simp [workVector, Vector.getElem_set, eq_comm (b := i), hones]

/-- Settles O32: word by word. -/
theorem workVectorStartsFromChainAndIv : Obligations.WorkVectorStartsFromChainAndIv := by
  intro h t f
  refine ⟨fun i => ?_, fun i => ?_, ?_, ?_, ?_, ?_⟩
  · have hi := i.isLt
    rw [workVector_getElem, if_neg (by omega), if_neg (by omega), if_neg (by omega), dif_pos hi]
    rfl
  · have hi := i.isLt
    rw [workVector_getElem, if_neg (by omega), if_neg (by omega), if_neg (by omega), dif_neg (by omega)]
    simp only [Nat.add_sub_cancel_left]
  · simp [workVector_getElem, Counter.value_low]
  · simp [workVector_getElem, Counter.value_high]
  · simp [workVector_getElem]
  · simp [workVector_getElem]

end Sys2Proof.Machine

/-! # The hash state (41_block_processing.md): the seed, the counter, the pending block, and SUM on a byte stream -/

namespace Sys2Proof.Machine

/-! ## The seed (41_block_processing.md R140, R141) -/

theorem seed_getElem (n : Nat) (i : Fin 8) : (seed n)[i] = iv[i] ^^^ le64At (parameterBlock n) (8 * i.val) := by
  simp [seed]

/-- A byte of `zeros n` is zero, and so is what a read beyond its end gives. -/
theorem zeros_getD (n k : Nat) : (zeros n).getD k 0 = 0 := by
  rcases lt_or_ge k n with hk | hk
  · rw [List.getD_eq_getElem _ _ (by simpa using hk)]
    exact List.getElem_replicate _
  · exact List.getD_eq_default _ _ (by simpa using hk)

/-- Beyond digest length, key length, fan-out and depth the parameter block is zero. -/
theorem parameterBlock_getD_of_ge (n : Nat) {j : Nat} (hj : 4 ≤ j) : (parameterBlock n).getD j 0 = 0 := by
  rw [parameterBlock, List.getD_append_right _ _ _ _ hj, zeros_getD]

/-- The first word of the parameter block: depth 1, fan-out 1, key length 0, and the digest length lowest. -/
theorem le64At_parameterBlock_zero {n : Nat} (hn : n < 256) :
    le64At (parameterBlock n) 0 = 0x0000000001010000 ^^^ BitVec.ofNat 64 n := by
  have hfixed : leWord [0, 1, 1, 0, 0, 0, 0] <<< 8 = 0x0000000001010000 := by decide
  have hbytes : le64At (parameterBlock n) 0 = (BitVec.ofNat 8 n).setWidth 64 ||| 0x0000000001010000 := by
    rw [← hfixed]
    rfl
  have hlow : ∀ b : Byte, b.setWidth 64 ||| 0x0000000001010000 = 0x0000000001010000 ^^^ b.setWidth 64 := by
    decide
  rw [hbytes, hlow, BitVec.setWidth_ofNat_of_le_of_lt (by decide) hn]

/-- The other words of the parameter block are zero. -/
theorem le64At_parameterBlock_of_ne_zero (n : Nat) {i : Nat} (hi : i ≠ 0) :
    le64At (parameterBlock n) (8 * i) = 0 := by
  have hbytes : ((List.range 8).map fun k => (parameterBlock n).getD (8 * i + k) 0) = (List.range 8).map fun _ => 0 :=
    List.map_congr_left fun k _ => parameterBlock_getD_of_ge n (by omega)
  rw [le64At, hbytes]
  decide

/-- The seed's first word carries the output length (41_block_processing.md R140, R141). -/
theorem seed_getElem_zero {n : Nat} (hn : n < 256) :
    (seed n)[0] = iv[0] ^^^ 0x0000000001010000 ^^^ BitVec.ofNat 64 n := by
  rw [BitVec.xor_assoc, ← le64At_parameterBlock_zero hn]
  exact seed_getElem n 0

/-- Settles O36: of the parameter block only the first word is not zero, and the output length can be read back from the
seed's first word. -/
theorem seedEncodesTheOutputLength : Obligations.SeedEncodesTheOutputLength := by
  refine ⟨fun n _ hn => ⟨seed_getElem_zero (by omega), fun i hi => ?_⟩, fun n n' _ hn _ hn' hseed => ?_⟩
  · rw [seed_getElem, le64At_parameterBlock_of_ne_zero n hi]
    exact BitVec.xor_zero
  · have hword : (seed n)[0] = (seed n')[0] := by rw [hseed]
    rw [seed_getElem_zero (by omega), seed_getElem_zero (by omega), BitVec.xor_right_inj] at hword
    have hnum := congrArg BitVec.toNat hword
    simp only [BitVec.toNat_ofNat] at hnum
    omega

/-! ## The byte counter (41_block_processing.md R144) -/

/-- A counter of 128 bits holds a number modulo 2^128. -/
theorem Counter.value_ofNat (n : Nat) : (Counter.ofNat n).value.toNat = n % 2 ^ 128 := by
  simp only [Counter.value_toNat, Counter.ofNat, BitVec.toNat_ofNat]
  omega

/-- Every counter is the one that holds its own number. -/
theorem Counter.ofNat_value (t : Counter) : Counter.ofNat t.value.toNat = t := by
  have hlow := t.t0.isLt
  have hhigh : (t.t1.toNat * 2 ^ 64 + t.t0.toNat) / 2 ^ 64 = t.t1.toNat := by omega
  rw [Counter.value_toNat, Counter.ofNat, hhigh]
  congr 1
  · exact BitVec.eq_of_toNat_eq (by simp only [BitVec.toNat_ofNat]; omega)
  · exact BitVec.ofNat_toNat ..

/-- Settles O39: a counter is the one that holds its number, and on such counters the carry adds byte counts. -/
theorem counterAdditionIsModulo2Pow128 : Obligations.CounterAdditionIsModulo2Pow128 := by
  intro t k hk
  have hadd : t.add (BitVec.ofNat 64 k) = Counter.ofNat (t.value.toNat + k) := by
    rw [← Counter.ofNat_add _ k (by omega), Counter.ofNat_value]
  rw [hadd, Counter.value_ofNat]

/-! ## The pending block (41_block_processing.md R143, R147, R153) -/

/-- Settles O40: by whether the buffer is full. -/
theorem absorbDefersTheFullBlock : Obligations.AbsorbDefersTheFullBlock :=
  fun _ b => ⟨absorb_full b, absorb_room b, absorb_buf_bounds b⟩

/-- The hash state after a byte sequence is that of the message of these bytes (41_block_processing.md R148). -/
theorem absorbAll_freshHasher (n : Nat) (bytes : List Byte) :
    absorbAll (freshHasher n) bytes = Message.hasher { outlen := n, bytes := bytes } := by
  rw [← Message.hasher_nil, absorbAll_message_hasher, List.nil_append]

/-- Settles O43: INIT leaves the hash state of the empty message, and each byte extends the message. -/
theorem absorbedBytesHaveClosedForm : Obligations.AbsorbedBytesHaveClosedForm :=
  absorbAll_freshHasher

/-- T after a message counts the bytes of the blocks compressed (41_block_processing.md R153). -/
theorem Message.hasher_t_value (m : Message) :
    m.hasher.t.value.toNat = 128 * blocksBeforeSum m.bytes.length % 2 ^ 128 :=
  Counter.value_ofNat _

/-- What a message leaves pending is at most one block (10_state.md R28). -/
theorem Message.hasher_buf_length_le (m : Message) : m.hasher.buf.length ≤ 128 := by
  rw [Message.hasher_buf_length, blocksBeforeSum]
  omega

/-- Once a byte has been written, some bytes are pending. -/
theorem blocksBeforeSum_lt {len : Nat} (h : 0 < len) : 128 * blocksBeforeSum len < len := by
  unfold blocksBeforeSum
  omega

/-- Settles O42: in the closed form, the bytes before the pending ones are the blocks already compressed. -/
theorem pendingBytesAreTheLastBlock : Obligations.PendingBytesAreTheLastBlock := by
  intro n bytes hne
  have hlt := blocksBeforeSum_lt (List.length_pos_iff.mpr hne)
  have hbefore : (bytes.take (128 * blocksBeforeSum bytes.length)).length = 128 * blocksBeforeSum bytes.length :=
    List.length_take_of_le hlt.le
  rw [absorbAll_freshHasher]
  refine ⟨bytes.take (128 * blocksBeforeSum bytes.length), (List.take_append_drop _ bytes).symm, ?_, ?_,
    Message.hasher_buf_length_le _, ?_⟩
  · rw [hbefore, Nat.mul_mod_right]
  · rw [Message.hasher_buf_length]
    exact Nat.sub_pos_of_lt hlt
  · rw [hbefore, Message.hasher_t_value]

/-- Settles O44: the closed form of T, BUFLEN and the final byte count, at the lengths of the table. -/
theorem boundaryLengths : Obligations.BoundaryLengths := by
  intro n bytes row hrow hlen
  have hpending := Message.hasher_buf_length_le { outlen := n, bytes := bytes }
  rw [absorbAll_freshHasher]
  simp only [↓counterAdditionIsModulo2Pow128 _ _ hpending, Message.hasher_t_value, Message.hasher_buf_length, hlen]
  clear hlen hpending
  revert row
  decide

/-! ## SUM on a byte stream (41_block_processing.md R149 to R152) -/

/-- The state that SUM leaves on a core whose hash state is `x` (42_commands.md R173). -/
def State.summed (s : State) (x : Hasher) : State :=
  { s with hasher := some x, digest := some (digestOf x), dvalid := true }.complete x.outlen

@[simp] theorem summed_hasher (s : State) (x : Hasher) : (s.summed x).hasher = some x := rfl

@[simp] theorem summed_readDigest (s : State) (x : Hasher) : (s.summed x).readDigest = some (digestOf x) := rfl

/-- What SUM leaves depends on the state before it only through the hash state and the commands to come. -/
theorem summed_congr {s s' : State} (h : s.stream = s'.stream) (x : Hasher) : s.summed x = s'.summed x := by
  simp [State.summed, State.complete, h]

/-- SUM leaves the hash state as it finds it (42_commands.md R173). -/
theorem execSum_eq_summed {s : State} {x : Hasher} (hx : s.hasher = some x) : execSum s = .next (s.summed x) := by
  rw [execSum, whenConfigured_some hx, State.summed, ← hx]

theorem runCommands_sum {s : State} {x : Hasher} (hx : s.hasher = some x) :
    runCommands [encode .sum] s = .next (s.summed x) := by
  have hstep : execute (encode .sum) s = .next (s.summed x) := by
    rw [execute_of_decode (decode_encode rfl), exec_sum_eq, execSum_eq_summed hx]
  exact runCommands_cons hstep []

/-- WRITE commands in range and a SUM leave the digest of the bytes they carry, however these are split
(41_block_processing.md R149). -/
theorem runCommands_writeCommands_sum {ws : List (Nat × BitVec 64)} (hws : ∀ w ∈ ws, w.1 ≤ 8) {s : State}
    {x : Hasher} (hx : s.hasher = some x) :
    runCommands (writeCommands ws ++ [encode .sum]) s = .next (s.summed (absorbAll x (writtenBytes ws))) := by
  induction ws generalizing s x with
  | nil => exact runCommands_sum hx
  | cons w ws ih =>
    obtain ⟨hw, hrest⟩ := List.forall_mem_cons.mp hws
    rw [writeCommands_cons, List.cons_append, runCommands_cons (execute_encode_write w.2 hx hw),
      ih hrest (complete_hasher _ _), writtenBytes_cons, absorbAll_append]
    rfl

/-- WRITES and a SUM leave the digest of all the bytes (30_encoding.md R81). -/
theorem runCommands_writeS_sum (bytes : List Byte) {s : State} {x : Hasher} (hx : s.hasher = some x) :
    runCommands (assemble (writeS bytes ++ [.sum])) s = .next (s.summed (absorbAll x bytes)) := by
  have hparts : assemble (writeS bytes ++ [.sum]) = writeCommands (writeSPairs bytes) ++ [encode .sum] := by
    rw [← assemble_writeS]
    exact List.map_append
  rw [hparts, runCommands_writeCommands_sum (writeSPairs_le bytes) hx, writtenBytes_writeSPairs]

/-- RESET on a configured core makes a fresh hash state of the same OUTLEN (42_commands.md R174). -/
theorem execute_encode_reset {s : State} {x : Hasher} (hx : s.hasher = some x) : execute (encode .reset) s =
      .next ({ s with hasher := some (freshHasher x.outlen), dvalid := false }.complete 0) :=
  execute_eq_next_iff.mpr (.reset (decode_encode rfl) hx)

/-- Settles O47: the hash state that SUM reads is the message's. -/
theorem sumGivesTheMessageDigest : Obligations.SumGivesTheMessageDigest := by
  intro s m hm
  refine ⟨_, execSum_eq_summed hm, ?_, hm.symm⟩
  rw [summed_readDigest, digestOf_message_hasher]

/-- Settles O50: both runs end in what SUM leaves on the hash state of the whole. -/
theorem splitOfTheInputDoesNotMatter : Obligations.SplitOfTheInputDoesNotMatter := by
  intro s x ws ws' hx hws hws' hbytes
  refine ⟨_, runCommands_writeCommands_sum hws hx, ?_, rfl, rfl⟩
  rw [hbytes, runCommands_writeCommands_sum hws' hx]

/-- Settles O51: SUM leaves the hash state of the message, to which the bytes written later are appended. -/
theorem sumDoesNotDisturbTheStream : Obligations.SumDoesNotDisturbTheStream := by
  intro s m more hm
  refine ⟨_, _, _, runCommands_sum hm, runCommands_sum (summed_hasher _ _),
    runCommands_writeS_sum more (summed_hasher _ _), ?_, rfl, ?_⟩
  · rw [summed_readDigest, digestOf_message_hasher]
  · rw [summed_readDigest, absorbAll_message_hasher, digestOf_message_hasher]

/-- Settles O52: RESET and INIT leave the same fresh hash state; RESULT, in which they differ, SUM overwrites. -/
theorem resetEqualsFreshInit : Obligations.ResetEqualsFreshInit := by
  intro s x bytes hx hlo hhi
  have hreset := (runCommands_cons (execute_encode_reset hx) _).trans
    (runCommands_writeS_sum bytes (complete_hasher _ _))
  have hinit := (runCommands_cons (execute_encode_init s hlo hhi) _).trans
    (runCommands_writeS_sum bytes (complete_hasher _ _))
  exact ⟨_, hreset, hinit.trans (congrArg _ (summed_congr rfl _))⟩

end Sys2Proof.Machine

/-! # The commands (42_commands.md): which words run them, what they do, how they end, and the step that takes one -/

namespace Sys2Proof.Machine

/-! ## The words of a command (30_encoding.md R75, R76) -/

/-- The words of an opcode run the command made from ARG and DATA, if a legal one among them has the fields of that
command. -/
theorem wordsOf_of_fields {op : Nat} {i : Nat → BitVec 64 → Instr} (hop : ∀ arg data, (i arg data).opcode = op)
    (harg : ∀ c, opOf c = op → ¬ IllegalWord c → argOf c = (i (argOf c) c.data).argField)
    (hdata : ∀ arg data n d, i arg data = .write n d → d = data) : WordsOf op i := by
  intro c s hc
  refine ⟨(illegalWordsRaiseIllegalCommand c s).2.2, fun hlegal => execute_of_decode ?_ s⟩
  have hrsv : rsvOf c = 0 := by omega
  exact decode_eq_command_iff.mpr ⟨hrsv, hc.trans (hop _ _).symm, harg c hc hlegal, hdata _ _⟩

/-- The words of SUM, RESET and SIZE: ARG is 0 in a legal one, and DATA is not read (30_encoding.md R76). -/
theorem wordsOf_noArg {i : Instr} (hop : i.opcode = 3 ∨ i.opcode = 4 ∨ i.opcode = 5) (harg : i.argField = 0) :
    WordsOf i.opcode fun _ _ => i := by
  refine wordsOf_of_fields (fun _ _ => rfl) (fun c hc hlegal => ?_) ?_
  · rw [harg]
    omega
  · rintro - - n d rfl
    simp at hop

/-! ## The effect of each command (42_commands.md R171 to R175) -/

/-- Settles O9: by the two sides of the range check. -/
theorem initCreatesAnInstance : Obligations.InitCreatesAnInstance :=
  ⟨wordsOf_of_fields (fun _ _ => rfl) (fun _ _ _ => rfl) (by simp),
    fun _ _ hlo hhi => if_neg (by omega), fun _ _ hrange => if_pos hrange⟩

/-- A WRITE of at most 8 bytes goes on to the check for a hash state (60_exceptions.md R206). -/
theorem execWrite_of_le {n : Nat} (hn : n ≤ 8) (data : BitVec 64) (s : State) :
    execWrite n data s = whenConfigured s fun x =>
      { s with hasher := some (absorbAll x (laneBytes n data)) }.complete n :=
  if_neg (by omega)

/-- Settles O10: by the check of the byte count, and then by whether there is a hash state. -/
theorem writeAbsorbsItsBytes : Obligations.WriteAbsorbsItsBytes := by
  refine ⟨wordsOf_of_fields (fun _ _ => rfl) (fun _ _ _ => rfl) ?_, ?_, ?_, ?_⟩
  · rintro arg data n d ⟨⟩
    rfl
  · intro n data s x hn hx
    rw [exec_write_eq, execWrite_of_le hn, whenConfigured_some hx]
    rfl
  · exact fun n data s hn => if_pos hn
  · intro n data s hn hx
    rw [exec_write_eq, execWrite_of_le hn, whenConfigured_none hx]
    rfl

/-- What SUM writes to DIGEST, with the final compression's bytes read off its words (41_block_processing.md R146). -/
theorem digestOf_eq_lanes (x : Hasher) :
    digestOf x = Vector.ofFn fun i : Fin 64 =>
      if i.val < x.outlen then byteOf (finalChain x)[i.val / 8] (i.val % 8) else 0 := by
  unfold digestOf
  congr 1
  funext i
  split
  case isTrue hi =>
    have hword : (finalChain x).toList.getD (i.val / 8) 0 = (finalChain x)[i.val / 8] :=
      List.getD_eq_getElem _ _ (by simp; omega)
    rw [finalize, serialize_getD _ _ _ hi, hword]
  case isFalse => rfl

/-- Settles O11: the bytes of DIGEST are lanes of the final compression's words. -/
theorem sumComputesTheDigest : Obligations.SumComputesTheDigest := by
  refine ⟨wordsOf_noArg (i := .sum) (by simp) rfl, fun s x hx => ?_, fun s => whenConfigured_none⟩
  rw [exec_sum_eq, execSum, whenConfigured_some hx, digestOf_eq_lanes]
  rfl

/-- Settles O12: by whether there is a hash state. -/
theorem resetRestoresTheSeed : Obligations.ResetRestoresTheSeed :=
  ⟨wordsOf_noArg (i := .reset) (by simp) rfl, fun _ _ => whenConfigured_some, fun _ => whenConfigured_none⟩

/-- Settles O13: by whether there is a hash state. -/
theorem sizeReportsTheOutputLength : Obligations.SizeReportsTheOutputLength :=
  ⟨wordsOf_noArg (i := .size) (by simp) rfl, fun _ _ => whenConfigured_some, fun _ => whenConfigured_none⟩

/-- Settles O16: ERR is the first failing check, here OK, and its code contributes 0 to STATUS. -/
theorem passedChecksEndWithOk : Obligations.PassedChecksEndWithOk := by
  intro c s hcheck
  obtain ⟨t, ht⟩ := execute_completes c s
  have herr : t.err = .ok := (commandEffect_of_execute ht).err_eq_check.trans hcheck
  have hcode : t.err.code.toNat = 0 := by rw [herr]; rfl
  refine ⟨t, ht, herr, ?_⟩
  rw [← Nat.zero_add (t.cfg.toNat * 2 ^ 8), ← hcode, ← status_toNat, BitVec.ofNat_toNat, BitVec.setWidth_eq]

/-! ## The blocks one WRITE compresses (41_block_processing.md R143) -/

/-- Bytes that fit the buffer are appended to it, and nothing is compressed. -/
theorem absorbAll_room {x : Hasher} {bs : List Byte} (h : x.buf.length + bs.length ≤ 128) :
    absorbAll x bs = { x with buf := x.buf ++ bs } := by
  induction bs generalizing x with
  | nil => simp
  | cons b bs ih =>
    rw [List.length_cons] at h
    rw [absorbAll_cons, absorb_room b (by omega), ih (by simp; omega)]
    simp

/-- Of bytes that fill the buffer and go on for at most one more block, the full block is compressed and the bytes after
it are left pending. -/
theorem absorbAll_over_block {x : Hasher} {as : List Byte} (hfull : (x.buf ++ as).length = 128) (b : Byte)
    {bs : List Byte} (hbs : bs.length < 128) :
    absorbAll x (as ++ b :: bs) =
      { x with
        h := compress x.h (decodeBlock (x.buf ++ as)) (x.t.add 128) false
        t := x.t.add 128
        buf := b :: bs } := by
  have hfill : absorbAll x as = { x with buf := x.buf ++ as } :=
    absorbAll_room (by rw [← List.length_append, hfull])
  rw [absorbAll_append, hfill, absorbAll_cons, absorb_full b hfull, absorbAll_room (by simp; omega)]
  rfl

/-- Absorbing fewer bytes than a block holds compresses at most one block: the first 128 of the bytes pending and
absorbed, when there are more than 128. -/
theorem absorbAll_lt_block {x : Hasher} {bs : List Byte} (hbuf : x.buf.length ≤ 128) (hbs : bs.length < 128) :
    absorbAll x bs =
      if (x.buf ++ bs).length ≤ 128 then { x with buf := x.buf ++ bs }
      else
        { x with
          h := compress x.h (decodeBlock ((x.buf ++ bs).take 128)) (x.t.add 128) false
          t := x.t.add 128
          buf := (x.buf ++ bs).drop 128 } := by
  split
  case isTrue hroom => exact absorbAll_room (by rwa [← List.length_append])
  case isFalse hover =>
    rw [List.length_append, not_le] at hover
    have hfull : (x.buf ++ bs.take (128 - x.buf.length)).length = 128 := by simp; omega
    obtain ⟨b, rest, hrest⟩ : ∃ b rest, bs.drop (128 - x.buf.length) = b :: rest :=
      List.exists_cons_of_length_pos (by rw [List.length_drop]; omega)
    have hbytes : bs = bs.take (128 - x.buf.length) ++ b :: rest := by rw [← hrest, List.take_append_drop]
    have hlen : rest.length < 128 := by
      have hcount := congrArg List.length hrest
      rw [List.length_drop, List.length_cons] at hcount
      omega
    have hblock : (x.buf ++ bs).take 128 = x.buf ++ bs.take (128 - x.buf.length) := by
      rw [List.take_append, List.take_of_length_le hbuf]
    have hpending : (x.buf ++ bs).drop 128 = b :: rest := by
      rw [List.drop_append, List.drop_of_length_le hbuf, hrest, List.nil_append]
    rw [hblock, hpending, ← absorbAll_over_block hfull b hlen, ← hbytes]

/-- Settles O41: a WRITE absorbs at most 8 bytes, fewer than a block. -/
theorem writeCompressesAtMostOneBlock : Obligations.WriteCompressesAtMostOneBlock := by
  intro s x n data hx hbuf hn
  have hlen : (dataLanes n data).length < 128 := (laneBytes_length n data).trans_lt (by omega)
  refine ⟨_, writeAbsorbsItsBytes.2.1 n data s x hn hx, ?_⟩
  exact (congrArg some (absorbAll_lt_block hbuf hlen)).trans (apply_ite some _ _ _)

/-! ## The step (42_commands.md R170) -/

/-- A step executes the command in front of the stream. -/
theorem step_of_stream_cons {s : State} {c : Command} {cs : List Command} (h : s.stream = c :: cs) :
    step s = execute c { s with stream := cs } := by
  simp [step, nextCommand, h]

/-- A core to which no command is issued stays as it is (log entry 3). -/
theorem step_of_stream_nil {s : State} (h : s.stream = []) : step s = .next s := by
  simp [step, (nextCommand_eq_none_iff s).mpr h]

/-- Settles O5: by the stream, and then by what its first word decodes to. -/
theorem stepRunsTheNextCommand : Obligations.StepRunsTheNextCommand := by
  refine ⟨fun s c cs i hs hdec => ?_, fun s c cs why hs hdec => ?_, fun _ => step_of_stream_nil⟩
  · rw [step_of_stream_cons hs, execute_of_decode hdec]
  · rw [step_of_stream_cons hs]
    exact (illegalWordsRaiseIllegalCommand c _).2.2 ((illegalWord_iff c).mpr ⟨why, hdec⟩)

/-- A table word gives an instruction exactly when the command with its bits decodes to it (log entry 4). -/
theorem decodeTableWord_eq_some_iff {nbits w : Nat} {i : Instr} :
    decodeTableWord nbits w = some i ↔ decode (commandOfTableWord nbits w) = .command i := by
  unfold decodeTableWord
  cases decode (commandOfTableWord nbits w) with
  | command j => simp
  | illegal why => simp

/-- Settles O6: the placed word is in front of the stream. -/
theorem placedWordRunsNext : Obligations.PlacedWordRunsNext := by
  intro s nbits w i hdec
  rw [State.withFetchWord, step_of_stream_cons (issueNext_stream s _)]
  exact execute_of_decode (decodeTableWord_eq_some_iff.mp hdec) s

end Sys2Proof.Machine

/-! # The errors (60_exceptions.md): which error a command ends with, and what it neither changes nor depends on -/

namespace Sys2Proof.Machine

/-- The check for a hash state, by its failure instead of its success (60_exceptions.md R204). -/
theorem configuredCheck_eq (s : State) :
    (if s.cfg then ErrCode.ok else .notConfigured) = if s.cfg = false then .notConfigured else .ok := by
  cases s.cfg with
  | false => rfl
  | true => rfl

/-- The checks on the fields of the command word and on CFG, in the order of priority (60_exceptions.md R206). -/
theorem check_decode_eq (c : Command) (s : State) :
    check (decode c) s =
      if IllegalWord c then .illegalCommand
      else if opOf c = 2 ∧ 8 < argOf c then .badLength
      else if opOf c ≠ 1 ∧ s.cfg = false then .notConfigured
      else if opOf c = 1 ∧ (argOf c < 1 ∨ 64 < argOf c) then .invalidParameter
      else .ok := by
  by_cases hword : IllegalWord c
  · obtain ⟨why, hdec⟩ := (illegalWord_iff c).mp hword
    rw [if_pos hword, hdec, check]
  · obtain ⟨i, hdec⟩ := (not_illegalWord_iff c).mp hword
    rw [if_neg hword, opOf_of_decode hdec, argOf_of_decode hdec, hdec]
    cases i with
    | init n => simp [check]
    | write n data => simp [check, configuredCheck_eq]
    | sum => simp [check, configuredCheck_eq]
    | reset => simp [check, configuredCheck_eq]
    | size => simp [check, configuredCheck_eq]

/-- Settles O14: ERR is the first failing check, and the checks are those of R206 on the fields of the word. -/
theorem errorsAreReportedByPriority : Obligations.ErrorsAreReportedByPriority := by
  intro c s
  obtain ⟨t, ht⟩ := execute_completes c s
  exact ⟨t, ht, (commandEffect_of_execute ht).err_eq_check.trans (check_decode_eq c s)⟩

/-- Settles O15: a failing check is one of the effects of a command, and it only records its error. -/
theorem failedCommandChangesOnlyErrAndResult : Obligations.FailedCommandChangesOnlyErrAndResult :=
  fun _ _ _ hcheck herr => execute_eq_next_iff.mpr (.failed_of_eq hcheck herr)

/-- Every effect of a command writes ERR and RESULT, and none reads them (60_exceptions.md R208). -/
theorem CommandEffect.of_err_result {c : Command} {s t : State} (h : CommandEffect c s t) (e : ErrCode)
    (r : BitVec 32) : CommandEffect c { s with err := e, result := r } t := by
  cases h with
  | failed hfail => exact .failed (s := { s with err := e, result := r }) hfail
  | init hdec hlo hhi => exact .init hdec hlo hhi
  | write hdec hn hx => exact .write (s := { s with err := e, result := r }) hdec hn hx
  | sum hdec hx => exact .sum (s := { s with err := e, result := r }) hdec hx
  | reset hdec hx => exact .reset (s := { s with err := e, result := r }) hdec hx
  | size hdec hx => exact .size (s := { s with err := e, result := r }) hdec hx

/-- Settles O17: the effect of the command is the same whatever ERR and RESULT were before it. -/
theorem errIsNotSticky : Obligations.ErrIsNotSticky := by
  intro c s e r
  obtain ⟨t, ht⟩ := execute_completes c s
  rw [ht]
  exact execute_eq_next_iff.mpr ((commandEffect_of_execute ht).of_err_result e r)

end Sys2Proof.Machine

/-! # Reset and hazards (70_reset_and_hazards.md): every step completes -/

namespace Sys2Proof.Machine

/-- Settles O7, by the stream: a step executes its first command, and that completes and keeps the commands after it;
where there is none, the core stays as it is. -/
theorem everyStepCompletes : Obligations.EveryStepCompletes := by
  intro s
  cases hs : s.stream with
  | nil => exact ⟨s, step_of_stream_nil hs, hs⟩
  | cons c cs =>
    obtain ⟨t, ht⟩ := execute_completes c { s with stream := cs }
    exact ⟨t, (step_of_stream_cons hs).trans ht, (commandEffect_of_execute ht).stream_eq⟩

end Sys2Proof.Machine
